-- ==== Sys2Proof/Word.lean ====
section
/-! DEFINITION. The words of the machine and their plainest forms (spec/00_scope.md R10, R11, "Fixed values"). -/
namespace Sys2Proof

/-- A memory byte or the content of a V register, 0..255 (R20). -/
abbrev Byte := BitVec 8

/-- A 12-bit address: I, pc and the stack slots (R24, R25, R26). -/
abbrev Addr := BitVec 12

/-- A 16-bit opcode (R70). -/
abbrev Opcode := BitVec 16

/-- The index of a V register, of a key or of a sprite row count: 0..15 (R73, R74). -/
abbrev Nibble := Fin 16

/-- The number of bytes of memory (R50). -/
abbrev memSize : Nat := 4096

end Sys2Proof
end

