-- ==== Sys2Proof/Config.lean ====
section
/-! DEFINITION. What a machine fixes before reset (spec/00_scope.md R5) and the free values the spec leaves open (R14). -/
namespace Sys2Proof

/-- QUIRK_SHIFT_SRC: the operand that 8xy6 and 8xyE shift (R5, D6). -/
inductive ShiftSrc where
  | vy
  | vx
deriving DecidableEq, Repr

/-- QUIRK_LS_ADVANCE_I: whether Fx55 and Fx65 leave I unchanged or add x + 1 (R5, R159, D7). -/
inductive LsAdvance where
  | unchanged
  | advance
deriving DecidableEq, Repr

/-- KEY_OOR: what Ex9E and ExA1 read when V[x] > 0xF (R5, R195, D12). -/
inductive KeyOor where
  | draw
  | mask
deriving DecidableEq, Repr

/-- MEM_INIT: the content at reset of the bytes that neither the font nor the ROM sets (R5, R36, D19). -/
inductive MemInit where
  | zero
  | draw
deriving DecidableEq, Repr

/-- The implementation parameters of R5. Their legal values are those of the types, but for
STACK_DEPTH, which `Params.wellFormed` bounds. -/
structure Params where
  /-- STACK_DEPTH, 12 to 16. -/
  stackDepth : Nat
  /-- LOAD_ADDR. -/
  loadAddr : Addr
  /-- FONT_BASE. -/
  fontBase : Addr
  /-- FONT_DATA: 16 glyphs of 5 bytes. -/
  fontData : Vector Byte 80
  shiftSrc : ShiftSrc
  lsAdvance : LsAdvance
  keyOor : KeyOor
  memInit : MemInit
deriving DecidableEq, Repr

/-- `draw rnd8` (R14, R142): the byte drawn when `n` draws came before. Free: no body, so a claim holds for
every value. Log entry 3. -/
opaque Config.rnd8 : Nat → Byte

/-- `draw bit` (R14, R195): the key bit drawn when `n` draws came before. Free, as `Config.rnd8`. Log entry 3. -/
opaque Config.keybit : Nat → Bool

/-- The memory draw of MEM_INIT = DRAW (R14, R36): the byte an address holds at reset. Free. Log entry 4. -/
opaque Config.memDraw : Nat → Byte

end Sys2Proof
end

