-- ==== Sys2Proof/Machine/Defaults.lean ====
section
/-! DEFINITION. The default parameters (spec/00_scope.md R5, decisions D2 to D7, D12, D19). Log entry 2. -/
namespace Sys2Proof

/-- The default FONT_DATA: the table of spec/10_state.md R33, digits 0 to 7. -/
def fontDigits0to7 : List Byte :=
  [0xF0, 0x90, 0x90, 0x90, 0xF0,  0x20, 0x60, 0x20, 0x20, 0x70,  0xF0, 0x10, 0xF0, 0x80, 0xF0,
   0xF0, 0x10, 0xF0, 0x10, 0xF0,  0x90, 0x90, 0xF0, 0x10, 0x10,  0xF0, 0x80, 0xF0, 0x10, 0xF0,
   0xF0, 0x80, 0xF0, 0x90, 0xF0,  0xF0, 0x10, 0x20, 0x40, 0x40]

/-- The table of R33, digits 8 to F. -/
def fontDigits8toF : List Byte :=
  [0xF0, 0x90, 0xF0, 0x90, 0xF0,  0xF0, 0x90, 0xF0, 0x10, 0xF0,  0xF0, 0x90, 0xF0, 0x90, 0x90,
   0xE0, 0x90, 0xE0, 0x90, 0xE0,  0xF0, 0x80, 0x80, 0x80, 0xF0,  0xE0, 0x90, 0x90, 0x90, 0xE0,
   0xF0, 0x80, 0xF0, 0x80, 0xF0,  0xF0, 0x80, 0xF0, 0x80, 0x80]

/-- The default FONT_DATA, 80 bytes (R33). PRESUMED: the spec takes the bytes from general knowledge (D4). -/
def defaultFont : Vector Byte 80 := ⟨(fontDigits0to7 ++ fontDigits8toF).toArray, rfl⟩

/-- The default value of every parameter (R5). -/
def Params.default : Params where
  stackDepth := 16
  loadAddr := 0x200
  fontBase := 0x000
  fontData := defaultFont
  shiftSrc := .vy
  lsAdvance := .unchanged
  keyOor := .draw
  memInit := .zero

end Sys2Proof
end

