-- ==== Sys2Proof/Machine/State.lean ====
section
/-! DEFINITION. The state of the block (spec/10_state.md), the reasons a step may stop, and the state after reset
(R36). -/
namespace Sys2Proof.Machine

open Sys2Proof

/-- Memory: the cells that differ from their reset content, addresses strictly rising (`Memory.wf`). An address not
listed reads as `Params.initByte` (Machine/Ops.lean). -/
abbrev Memory := List Host.Cell

/-- The display `D[r][c]`: 32 rows of 64 pixels, `true` is on (R31). -/
abbrev Display := Vector (Vector Bool 64) 32

/-- The faults of the machine: none. "The block raises no synchronous exception" (R210, R15); every address, index
and value wraps (R98). A type with no constructor says that nothing can raise one; safe. Log entry 15. -/
inductive Fault
deriving DecidableEq, Repr

/-- Why an operation on the block is refused (R15: a refused load, a refused step). -/
inductive Refusal where
  /-- An arm of `exec` with no meaning yet. No arm raises it. Safe. -/
  | notModelled (mnemonic : String)
  /-- Raised by `step` alone, while W ≠ none: Step has no transition and the state stays as it is (R90). Safe:
  nothing is claimed of a step that the spec says does not happen. Log entry 5. -/
  | heldForKey
  /-- Raised by `State.resetWith` alone: the ROM is longer than 4096 - LOAD_ADDR bytes, no state is created
  (R245). Safe. -/
  | romTooLong
deriving DecidableEq, Repr

/-- The whole state of the block (R12, R35), with the parameters fixed at Reset and the model's own draw counter. -/
structure State where
  /-- The parameters of R5, fixed at Reset (R246). Log entry 1. -/
  cfg : Params
  /-- `V[0..15]`; VF is `V[15]` (R20, R21). -/
  v : Vector Byte 16
  /-- `I`, the index register (R24). -/
  i : Addr
  /-- `pc` (R25). -/
  pc : Addr
  /-- `S[0..STACK_DEPTH-1]`, the return-address slots (R26). -/
  stack : List Addr
  /-- `SP`, an index into S (R27). -/
  sp : Nat
  /-- `DT`, the delay timer (R28). -/
  dt : Byte
  /-- `ST`, the sound timer (R28). -/
  st : Byte
  /-- `K[0..15]`, `true` is pressed (R29). -/
  keys : Vector Bool 16
  /-- `W`, the key-wait state (R30). -/
  waiting : Option Nibble
  /-- `D` (R31). -/
  display : Display
  /-- `M` (R50). -/
  mem : Memory
  /-- The model's own: how many draws were made (R14). Log entry 3. -/
  draws : Nat
deriving DecidableEq, Repr

/-- The state after Reset with parameters `cfg`, before ROM bytes are placed (R36, R240). -/
def State.initial (cfg : Params) : State where
  cfg := cfg
  v := Vector.replicate 16 0
  i := 0
  pc := cfg.loadAddr
  stack := List.replicate cfg.stackDepth 0
  sp := 0
  dt := 0
  st := 0
  keys := Vector.replicate 16 false
  waiting := none
  display := Vector.replicate 32 (Vector.replicate 64 false)
  mem := []
  draws := 0

/-- The machine right after reset: the default parameters and the empty ROM, which Reset accepts (R36, R243). -/
def State.reset : State := State.initial Params.default

end Sys2Proof.Machine
end

