-- ==== Sys2Proof/Machine/Ops.lean ====
section
/-! DEFINITION. The named operations on memory, registers, pc, stack and draws, which every meaning is written over.
The block has no exceptions (R210, R213, R214), so no operation takes one or returns from one. -/
namespace Sys2Proof

/-- What memory holds at address `a` right after Reset, before the ROM is placed (R36, R240): the font byte where
`a` is one of FONT_BASE .. FONT_BASE + 79 (mod 4096), else MEM_INIT. What an address that `Memory` does not list
reads as. Log entry 8. -/
def Params.initByte (cfg : Params) (a : Nat) : Byte :=
  let off := (a + memSize - cfg.fontBase.toNat) % memSize
  if h : off < 80 then cfg.fontData[off]
  else match cfg.memInit with
    | .zero => 0
    | .draw => Config.memDraw a

namespace Machine

/-! ## Memory cells -/

/-- The byte at an address (R50). -/
def Memory.read (cfg : Params) : Memory → Nat → Byte
  | [], a => cfg.initByte a
  | (b, v) :: m, a => if b = a then v else Memory.read cfg m a

/-- List the cell `(a, v)`, keeping addresses rising. -/
def Memory.insert (a : Nat) (v : Byte) : Memory → Memory
  | [] => [(a, v)]
  | (b, u) :: m =>
    if a < b then (a, v) :: (b, u) :: m
    else if a = b then (a, v) :: m
    else (b, u) :: Memory.insert a v m

/-- Unlist address `a`. -/
def Memory.erase (a : Nat) : Memory → Memory
  | [] => []
  | (b, u) :: m => if a = b then m else (b, u) :: Memory.erase a m

/-- Write one byte (R56). A byte equal to the address's reset content is not listed. -/
def Memory.write (cfg : Params) (m : Memory) (a : Nat) (v : Byte) : Memory :=
  if v = cfg.initByte a then m.erase a else m.insert a v

/-- Every address of `m` lies above `lo` and in 12 bits, addresses rise strictly, no cell holds its reset content. -/
def Memory.wfFrom (cfg : Params) : Option Nat → Memory → Bool
  | _, [] => true
  | lo, (a, v) :: m =>
    (match lo with
      | none => true
      | some b => decide (b < a)) &&
    decide (a < memSize) && decide (v ≠ cfg.initByte a) && Memory.wfFrom cfg (some a) m

/-- The canonical form of memory: equal memories are equal lists. -/
def Memory.wf (cfg : Params) (m : Memory) : Bool := Memory.wfFrom cfg none m

/-- `MemRead(a, 1)`: the byte `M[a mod 4096]` (R13, R51). -/
def State.memRead (s : State) (a : Nat) : Byte := s.mem.read s.cfg (a % memSize)

/-- `MemWrite(a, 1, v)`: `M[a mod 4096] <- v` (R13, R51). -/
def State.memWrite (s : State) (a : Nat) (v : Byte) : State :=
  { s with mem := s.mem.write s.cfg (a % memSize) v }

/-! ## V registers -/

/-- `V[x]` (R12, R20). -/
def State.reg (s : State) (x : Nibble) : Byte := s.v.get x

/-- `V[x] <- b` (R12, R20). -/
def State.setReg (s : State) (x : Nibble) (b : Byte) : State := { s with v := s.v.set x b }

/-- The register index `n`, for n in 0..15. -/
def nibble (n : Nat) : Nibble := ⟨n % 16, Nat.mod_lt _ (by decide)⟩

/-- VF is `V[15]` (R21). -/
abbrev vf : Nibble := 15

/-- `[c]`: 1 if the condition holds, else 0 (R11). -/
def flagByte (c : Bool) : Byte := if c then 1 else 0

/-- `VF <- [c]` (R22). -/
def State.setFlag (s : State) (c : Bool) : State := s.setReg vf (flagByte c)

/-- `V[x] <- b; VF <- [c]`, in this order, so the flag stays when x = 0xF (R94, R21). -/
def State.setRegFlag (s : State) (x : Nibble) (b : Byte) (c : Bool) : State := (s.setReg x b).setFlag c

/-! ## I, pc and skips -/

/-- `I <- a` (R24). -/
def State.setI (s : State) (a : Addr) : State := { s with i := a }

/-- `pc <- a` (R25). -/
def State.setPc (s : State) (a : Addr) : State := { s with pc := a }

/-- `pc <- (pc + 2) mod 4096`: the advance of the fetch (R92) and the skip (R97). -/
def State.nextWord (s : State) : State := s.setPc (s.pc + 2)

/-- Skip when `c` holds (R97). -/
def State.skipIf (s : State) (c : Bool) : State := if c then s.nextWord else s

/-! ## Timers, keypad, key wait and display -/

/-- `DT <- b` (R28). -/
def State.setDt (s : State) (b : Byte) : State := { s with dt := b }

/-- `ST <- b` (R28). -/
def State.setSt (s : State) (b : Byte) : State := { s with st := b }

/-- `K[k] <- p` (R29). -/
def State.setKey (s : State) (k : Nibble) (p : Bool) : State := { s with keys := s.keys.set k p }

/-- `W <- w` (R30). -/
def State.setWaiting (s : State) (w : Option Nibble) : State := { s with waiting := w }

/-- `D <- d` (R31). -/
def State.setDisplay (s : State) (d : Display) : State := { s with display := d }

/-! ## Stack -/

/-- The value of slot `S[j]` (R26). Total: 0 for an index that is no slot, which `State.Inv` rules out. Log 12. -/
def State.slot (s : State) (j : Nat) : Addr := s.stack.getD j 0

/-- `SP <- (SP + 1) mod STACK_DEPTH; S[SP] <- a` (R27, R102). -/
def State.push (s : State) (a : Addr) : State :=
  let sp' := (s.sp + 1) % s.cfg.stackDepth
  { s with sp := sp', stack := s.stack.set sp' a }

/-- `pc <- S[SP]; SP <- (SP - 1) mod STACK_DEPTH` (R27, R100); the slot is not cleared. -/
def State.popPc (s : State) : State :=
  { s with pc := s.slot s.sp, sp := (s.sp + s.cfg.stackDepth - 1) % s.cfg.stackDepth }

/-! ## Draws -/

/-- Count one draw (R14). Log entry 3. -/
def State.countDraw (s : State) : State := { s with draws := s.draws + 1 }

/-! ## Blocks of registers and memory -/

/-- `for k in 0 .. n-1: MemWrite((I + k) mod 4096, 1, V[k])`, k ascending (R157). -/
def State.storeRegs (s : State) : Nat → State
  | 0 => s
  | n + 1 => (s.storeRegs n).memWrite (s.i.toNat + n) (s.reg (nibble n))

/-- `for k in 0 .. n-1: V[k] <- MemRead((I + k) mod 4096, 1)`, k ascending (R158). -/
def State.loadRegs (s : State) : Nat → State
  | 0 => s
  | n + 1 => (s.loadRegs n).setReg (nibble n) (s.memRead (s.i.toNat + n))

/-- `for j: M[a + j] <- bytes[j]`, j ascending (R240, R243). -/
def State.loadBytes : List Byte → Nat → State → State
  | [], _, s => s
  | b :: bs, a, s => State.loadBytes bs (a + 1) (s.memWrite a b)

end Machine
end Sys2Proof
end

