-- ==== Sys2Proof/Machine/Flags.lean ====
section
/-! DEFINITION. Every result and flag computation of the V and I arithmetic: exact over Nat or Int, then narrowed
(spec/00_scope.md R11, spec/42_register_alu.md R133, R134). -/
namespace Sys2Proof.Machine

/-- `(a + b) mod 256` (R121, R128). -/
def addByte (a b : Byte) : Byte := BitVec.ofNat 8 (a.toNat + b.toNat)

/-- Carry out of bit 7: `[a + b > 255]` (R128). -/
def addCarry (a b : Byte) : Bool := decide (a.toNat + b.toNat > 255)

/-- `(a - b) mod 256`, from the integer difference (R129, R131). -/
def subByte (a b : Byte) : Byte := BitVec.ofInt 8 ((a.toNat : Int) - (b.toNat : Int))

/-- No borrow: `[a >= b]`, the difference is not negative before mod (R129, R131). -/
def subNoBorrow (a b : Byte) : Bool := decide ((a.toNat : Int) - (b.toNat : Int) ≥ 0)

/-- `s >> 1` (R130). -/
def shrByte (s : Byte) : Byte := BitVec.ofNat 8 (s.toNat / 2)

/-- The bit shifted out right: bit 0 of s (R130). -/
def shrOut (s : Byte) : Bool := s.getLsbD 0

/-- `(s << 1) mod 256` (R132). -/
def shlByte (s : Byte) : Byte := BitVec.ofNat 8 (s.toNat * 2)

/-- The bit shifted out left: bit 7 of s (R132). -/
def shlOut (s : Byte) : Bool := s.getLsbD 7

/-- `(a + v) mod 4096` (R103, R151). -/
def addAddr (a : Addr) (v : Byte) : Addr := BitVec.ofNat 12 (a.toNat + v.toNat)

/-- The sum passes 0xFFF: `[a + v > 0xFFF]` (R151). -/
def addAddrOverflow (a : Addr) (v : Byte) : Bool := decide (a.toNat + v.toNat > 0xFFF)

end Sys2Proof.Machine
end

