-- ==== Sys2Proof/Machine/Operands.lean ====
section
/-! DEFINITION. The operands that an instruction computes before it writes: the shift source, the glyph address, the
BCD digits, the key of a key test, the sprite bytes and the pixel a sprite bit lands on. -/
namespace Sys2Proof.Machine

/-- The value 8xy6 and 8xyE shift: V[y] under VY, V[x] under VX (R130, R132). -/
def State.shiftOperand (s : State) (x y : Nibble) : Byte :=
  match s.cfg.shiftSrc with
  | .vy => s.reg y
  | .vx => s.reg x

/-- The low four bits of a byte, as an index (R152, R195). -/
def lowNibble (b : Byte) : Nibble := nibble (b.toNat % 16)

/-- `(FONT_BASE + d * 5) mod 4096` for the digit d in the low nibble of `b` (R152). -/
def State.glyphAddr (s : State) (b : Byte) : Addr :=
  BitVec.ofNat 12 (s.cfg.fontBase.toNat + (lowNibble b).val * 5)

/-- `v / 100` (R155). -/
def bcdHundreds (v : Byte) : Byte := BitVec.ofNat 8 (v.toNat / 100)

/-- `(v / 10) mod 10` (R155). -/
def bcdTens (v : Byte) : Byte := BitVec.ofNat 8 (v.toNat / 10 % 10)

/-- `v mod 10` (R155). -/
def bcdUnits (v : Byte) : Byte := BitVec.ofNat 8 (v.toNat % 10)

/-- Whether the key test of code `k` reads the step's draw bit: `k > 0xF` under KEY_OOR = DRAW (R195). -/
def State.keyIsDrawn (s : State) (k : Byte) : Bool :=
  decide (k.toNat > 15) && decide (s.cfg.keyOor = .draw)

/-- `key(k, keybit)` (R195). -/
def State.key (s : State) (k : Byte) (keybit : Bool) : Bool :=
  if k.toNat ≤ 15 then s.keys.get (lowNibble k)
  else match s.cfg.keyOor with
    | .mask => s.keys.get (lowNibble k)
    | .draw => keybit

/-- The key test of code `k` by the running step (R195, R14): its value, with the step's draw bit. -/
def State.keyTest (s : State) (k : Byte) : Bool := s.key k (Config.keybit s.draws)

/-- The state after the key test of code `k`: a draw is counted where one was made (R14). -/
def State.afterKeyTest (s : State) (k : Byte) : State := if s.keyIsDrawn k then s.countDraw else s

/-- Byte `r` of the sprite: `M[(I + r) mod 4096]` (R172). -/
def State.spriteByte (s : State) (r : Nat) : Byte := s.memRead (s.i.toNat + r)

/-- Pixel offset `c` of a row byte is bit `7 - c` (R172). -/
def spriteBit (b : Byte) (c : Nat) : Bool := b.getLsbD (7 - c)

/-- `(cy + r) mod 32` (R175). -/
def pixelRow (cy : Byte) (r : Nat) : Fin 32 := Fin.ofNat 32 (cy.toNat + r)

/-- `(cx + c) mod 64` (R175). -/
def pixelCol (cx : Byte) (c : Nat) : Fin 64 := Fin.ofNat 64 (cx.toNat + c)

end Sys2Proof.Machine
end

