-- ==== Sys2Proof/Machine/Alu.lean ====
section
/-! DEFINITION. Register loads, arithmetic, logic, shifts and the random byte (spec/42_register_alu.md). -/
namespace Sys2Proof.Machine

/-- 6xkk, load immediate (R120). -/
def execLdImm (x : Nibble) (kk : Byte) (s : State) : Host.Outcome State Fault Refusal := .next (s.setReg x kk)

/-- 7xkk, add immediate, no flag (R121). -/
def execAddImm (x : Nibble) (kk : Byte) (s : State) : Host.Outcome State Fault Refusal :=
  .next (s.setReg x (addByte (s.reg x) kk))

/-- 8xy0, copy register (R122). -/
def execLdReg (x y : Nibble) (s : State) : Host.Outcome State Fault Refusal := .next (s.setReg x (s.reg y))

/-- 8xy1, bitwise OR; VF is not written as a flag (R123, R126). -/
def execOr (x y : Nibble) (s : State) : Host.Outcome State Fault Refusal := .next (s.setReg x (s.reg x ||| s.reg y))

/-- 8xy2, bitwise AND; VF is not written as a flag (R124, R126). -/
def execAnd (x y : Nibble) (s : State) : Host.Outcome State Fault Refusal := .next (s.setReg x (s.reg x &&& s.reg y))

/-- 8xy3, bitwise XOR; VF is not written as a flag (R125, R126). -/
def execXor (x y : Nibble) (s : State) : Host.Outcome State Fault Refusal := .next (s.setReg x (s.reg x ^^^ s.reg y))

/-- 8xy4, add with carry (R128). -/
def execAddReg (x y : Nibble) (s : State) : Host.Outcome State Fault Refusal :=
  .next (s.setRegFlag x (addByte (s.reg x) (s.reg y)) (addCarry (s.reg x) (s.reg y)))

/-- 8xy5, subtract V[x] - V[y] (R129). -/
def execSub (x y : Nibble) (s : State) : Host.Outcome State Fault Refusal :=
  .next (s.setRegFlag x (subByte (s.reg x) (s.reg y)) (subNoBorrow (s.reg x) (s.reg y)))

/-- 8xy6, shift right by one (R130). -/
def execShr (x y : Nibble) (s : State) : Host.Outcome State Fault Refusal :=
  .next (s.setRegFlag x (shrByte (s.shiftOperand x y)) (shrOut (s.shiftOperand x y)))

/-- 8xy7, reverse subtract V[y] - V[x] (R131). -/
def execSubn (x y : Nibble) (s : State) : Host.Outcome State Fault Refusal :=
  .next (s.setRegFlag x (subByte (s.reg y) (s.reg x)) (subNoBorrow (s.reg y) (s.reg x)))

/-- 8xyE, shift left by one (R132). -/
def execShl (x y : Nibble) (s : State) : Host.Outcome State Fault Refusal :=
  .next (s.setRegFlag x (shlByte (s.shiftOperand x y)) (shlOut (s.shiftOperand x y)))

/-- `V[x] <- r & kk` for a drawn byte r (R142). -/
def State.setMasked (s : State) (r : Byte) (x : Nibble) (kk : Byte) : State := s.setReg x (r &&& kk)

/-- Cxkk, random byte masked by kk: the byte is the step's draw (R142, R14). -/
def execRnd (x : Nibble) (kk : Byte) (s : State) : Host.Outcome State Fault Refusal :=
  .next (s.setMasked (Config.rnd8 s.draws) x kk).countDraw

end Sys2Proof.Machine
end

