-- ==== Sys2Proof/Machine/Control.lean ====
section
/-! DEFINITION. Control transfer and skips (spec/41_control_transfer.md). Each body sees the pc already advanced by
the fetch (R92). -/
namespace Sys2Proof.Machine

/-- 00EE, return from subroutine (R100). -/
def execRet (s : State) : Host.Outcome State Fault Refusal := .next s.popPc

/-- 1nnn, jump (R101). -/
def execJp (nnn : Addr) (s : State) : Host.Outcome State Fault Refusal := .next (s.setPc nnn)

/-- 2nnn, call subroutine: the pushed value is the advanced pc (R102). -/
def execCall (nnn : Addr) (s : State) : Host.Outcome State Fault Refusal := .next ((s.push s.pc).setPc nnn)

/-- Bnnn, jump to nnn plus V0 (R103). -/
def execJpV0 (nnn : Addr) (s : State) : Host.Outcome State Fault Refusal := .next (s.setPc (addAddr nnn (s.reg 0)))

/-- 3xkk, skip if V[x] = kk (R104). -/
def execSeImm (x : Nibble) (kk : Byte) (s : State) : Host.Outcome State Fault Refusal :=
  .next (s.skipIf (decide (s.reg x = kk)))

/-- 4xkk, skip if V[x] ≠ kk (R105). -/
def execSneImm (x : Nibble) (kk : Byte) (s : State) : Host.Outcome State Fault Refusal :=
  .next (s.skipIf (decide (s.reg x ≠ kk)))

/-- 5xy0, skip if V[x] = V[y] (R106). -/
def execSeReg (x y : Nibble) (s : State) : Host.Outcome State Fault Refusal :=
  .next (s.skipIf (decide (s.reg x = s.reg y)))

/-- 9xy0, skip if V[x] ≠ V[y] (R107). -/
def execSneReg (x y : Nibble) (s : State) : Host.Outcome State Fault Refusal :=
  .next (s.skipIf (decide (s.reg x ≠ s.reg y)))

end Sys2Proof.Machine
end

