-- ==== Sys2Proof/Machine/Index.lean ====
section
/-! DEFINITION. Index register, font lookup, BCD converter and block transfer (spec/43_index_memory_bcd.md). -/
namespace Sys2Proof.Machine

/-- Annn, load I (R150). -/
def execLdI (nnn : Addr) (s : State) : Host.Outcome State Fault Refusal := .next (s.setI nnn)

/-- Fx1E, add V[x] to I, VF is the overflow past 0xFFF (R151). -/
def execAddIVx (x : Nibble) (s : State) : Host.Outcome State Fault Refusal :=
  .next ((s.setI (addAddr s.i (s.reg x))).setFlag (addAddrOverflow s.i (s.reg x)))

/-- Fx29, point I at the glyph of the digit in the low nibble of V[x] (R152). -/
def execLdFVx (x : Nibble) (s : State) : Host.Outcome State Fault Refusal := .next (s.setI (s.glyphAddr (s.reg x)))

/-- Fx33, store the three BCD digits of V[x] at I, I + 1, I + 2 (R156). -/
def execLdBVx (x : Nibble) (s : State) : Host.Outcome State Fault Refusal :=
  .next (((s.memWrite s.i.toNat (bcdHundreds (s.reg x))).memWrite (s.i.toNat + 1) (bcdTens (s.reg x))).memWrite
    (s.i.toNat + 2) (bcdUnits (s.reg x)))

/-- The value of I after a block transfer of V[0..x]: I + x + 1 under ADVANCE, I under UNCHANGED (R159). -/
def State.blockNextI (s : State) (x : Nibble) : Addr :=
  match s.cfg.lsAdvance with
  | .unchanged => s.i
  | .advance => BitVec.ofNat 12 (s.i.toNat + x.val + 1)

/-- Fx55, store V0 to Vx at I .. I + x (R157, R159). -/
def execLdMemVx (x : Nibble) (s : State) : Host.Outcome State Fault Refusal :=
  .next ((s.storeRegs (x.val + 1)).setI (s.blockNextI x))

/-- Fx65, load V0 to Vx from I .. I + x (R158, R159). -/
def execLdVxMem (x : Nibble) (s : State) : Host.Outcome State Fault Refusal :=
  .next ((s.loadRegs (x.val + 1)).setI (s.blockNextI x))

end Sys2Proof.Machine
end

