-- ==== Sys2Proof/Machine/Screen.lean ====
section
/-! DEFINITION. Display clear and the sprite XOR-blitter with collision detection (spec/44_display.md). -/
namespace Sys2Proof.Machine

/-- `D[r][c]` (R31). -/
def Display.pixel (d : Display) (r : Fin 32) (c : Fin 64) : Bool := (d.get r).get c

/-- `D[r][c] <- D[r][c] ^ 1` (R173). -/
def Display.flip (d : Display) (r : Fin 32) (c : Fin 64) : Display := d.set r ((d.get r).set c (!d.pixel r c))

/-- All 2048 pixels 0 (R170). -/
def Display.clear : Display := Vector.replicate 32 (Vector.replicate 64 false)

/-- 00E0, clear the display; VF is unchanged (R170). -/
def execCls (s : State) : Host.Outcome State Fault Refusal := .next (s.setDisplay Display.clear)

/-- What the blitter carries: the display and `hit` (R173). -/
structure Blit where
  display : Display
  hit : Bool
deriving DecidableEq, Repr

/-- One sprite bit: where it is 1, its pixel is toggled, and `hit` becomes 1 if the pixel was 1 (R173, R174). -/
def blitPixel (cx cy b : Byte) (r c : Nat) (p : Blit) : Blit :=
  if spriteBit b c then
    { display := p.display.flip (pixelRow cy r) (pixelCol cx c)
      hit := p.hit || p.display.pixel (pixelRow cy r) (pixelCol cx c) }
  else p

/-- The first `n` bits of row `r`, left to right (R173). -/
def blitRow (cx cy b : Byte) (r : Nat) : Nat → Blit → Blit
  | 0, p => p
  | c + 1, p => blitPixel cx cy b r c (blitRow cx cy b r c p)

/-- The first `n` rows of the sprite, top to bottom (R173). -/
def blitRows (sprite : Nat → Byte) (cx cy : Byte) : Nat → Blit → Blit
  | 0, p => p
  | r + 1, p => blitRow cx cy (sprite r) r 8 (blitRows sprite cx cy r p)

/-- The display and collision flag after drawing `n` rows at column `cx`, row `cy` (R173). -/
def State.blit (s : State) (cx cy : Byte) (n : Nat) : Blit :=
  blitRows s.spriteByte cx cy n { display := s.display, hit := false }

/-- Dxyn, draw a sprite; VF is the collision flag, written in every case, n = 0 too (R173, R174, R177). -/
def execDrw (x y n : Nibble) (s : State) : Host.Outcome State Fault Refusal :=
  .next ((s.setDisplay (s.blit (s.reg x) (s.reg y) n.val).display).setFlag (s.blit (s.reg x) (s.reg y) n.val).hit)

end Sys2Proof.Machine
end

