-- ==== Sys2Proof/Machine/TimerKey.lean ====
section
/-! DEFINITION. Timers and keypad (spec/45_timers_keypad.md). -/
namespace Sys2Proof.Machine

/-- Fx07, read the delay timer (R190). -/
def execLdVxDt (x : Nibble) (s : State) : Host.Outcome State Fault Refusal := .next (s.setReg x s.dt)

/-- Fx15, set the delay timer (R191). -/
def execLdDtVx (x : Nibble) (s : State) : Host.Outcome State Fault Refusal := .next (s.setDt (s.reg x))

/-- Fx18, set the sound timer (R192). -/
def execLdStVx (x : Nibble) (s : State) : Host.Outcome State Fault Refusal := .next (s.setSt (s.reg x))

/-- Ex9E, skip if the key in V[x] is pressed (R193, R195). -/
def execSkp (x : Nibble) (s : State) : Host.Outcome State Fault Refusal :=
  .next ((s.afterKeyTest (s.reg x)).skipIf (s.keyTest (s.reg x)))

/-- ExA1, skip if the key in V[x] is not pressed (R194, R195). -/
def execSknp (x : Nibble) (s : State) : Host.Outcome State Fault Refusal :=
  .next ((s.afterKeyTest (s.reg x)).skipIf (!s.keyTest (s.reg x)))

/-- Fx0A, wait for a key press: `W <- x`; the later KeyDown writes V[x] (R196, R222). -/
def execLdVxK (x : Nibble) (s : State) : Host.Outcome State Fault Refusal := .next (s.setWaiting (some x))

end Sys2Proof.Machine
end

