-- ==== Sys2Proof/Decode.lean ====
section
/-! DEFINITION. Field extraction, the decode function and the encoder (spec/30_encoding.md), and the opcode map R75
as data, written independently of the decoder. -/
namespace Sys2Proof

/-- `u = o[15:12]` (R71). -/
def Opcode.u (o : Opcode) : BitVec 4 := o.extractLsb' 12 4

/-- `x = o[11:8]` (R71). -/
def Opcode.x (o : Opcode) : Nibble := (o.extractLsb' 8 4).toFin

/-- `y = o[7:4]` (R71). -/
def Opcode.y (o : Opcode) : Nibble := (o.extractLsb' 4 4).toFin

/-- `n = o[3:0]` (R71). -/
def Opcode.n (o : Opcode) : Nibble := (o.extractLsb' 0 4).toFin

/-- `kk = o[7:0]` (R71). -/
def Opcode.kk (o : Opcode) : Byte := o.extractLsb' 0 8

/-- `nnn = o[11:0]` (R71). -/
def Opcode.nnn (o : Opcode) : Addr := o.extractLsb' 0 12

/-- The six patterns of the no-op space, by group `u` (the table of R80). -/
inductive NoOp where
  /-- 0nnn with nnn other than 0x0E0 and 0x0EE -/
  | group0
  /-- 5xyn with n ≠ 0 -/
  | group5
  /-- 8xyn with n in 8, 9, A, B, C, D, F -/
  | group8
  /-- 9xyn with n ≠ 0 -/
  | group9
  /-- Exkk with kk other than 0x9E and 0xA1 -/
  | groupE
  /-- Fxkk with kk none of the nine of R75 -/
  | groupF
deriving DecidableEq, Repr

/-- What a word decodes to: one of the 34 instructions, or a no-op word, named by its pattern (R76, R80). -/
inductive Decoded where
  | instr (i : Instr)
  | noop (g : NoOp)
deriving DecidableEq, Repr

/-- Second-level select of group 8 on `n` (R76). -/
def decodeGroup8 (o : Opcode) : Decoded :=
  match o.n.val with
  | 0x0 => .instr (.ldReg o.x o.y)
  | 0x1 => .instr (.or o.x o.y)
  | 0x2 => .instr (.and o.x o.y)
  | 0x3 => .instr (.xor o.x o.y)
  | 0x4 => .instr (.addReg o.x o.y)
  | 0x5 => .instr (.sub o.x o.y)
  | 0x6 => .instr (.shr o.x o.y)
  | 0x7 => .instr (.subn o.x o.y)
  | 0xE => .instr (.shl o.x o.y)
  | _ => .noop .group8

/-- Second-level select of group E on `kk` (R76). -/
def decodeGroupE (o : Opcode) : Decoded :=
  match o.kk.toNat with
  | 0x9E => .instr (.skp o.x)
  | 0xA1 => .instr (.sknp o.x)
  | _ => .noop .groupE

/-- Second-level select of group F on `kk` (R76). -/
def decodeGroupF (o : Opcode) : Decoded :=
  match o.kk.toNat with
  | 0x07 => .instr (.ldVxDt o.x)
  | 0x0A => .instr (.ldVxK o.x)
  | 0x15 => .instr (.ldDtVx o.x)
  | 0x18 => .instr (.ldStVx o.x)
  | 0x1E => .instr (.addIVx o.x)
  | 0x29 => .instr (.ldFVx o.x)
  | 0x33 => .instr (.ldBVx o.x)
  | 0x55 => .instr (.ldMemVx o.x)
  | 0x65 => .instr (.ldVxMem o.x)
  | _ => .noop .groupF

/-- The decode function, total on all 65536 words: the dispatch multiplexer (R76). -/
def decode (o : Opcode) : Decoded :=
  match o.u.toNat with
  | 0x0 => if o = 0x00E0 then .instr .cls else if o = 0x00EE then .instr .ret else .noop .group0
  | 0x1 => .instr (.jp o.nnn)
  | 0x2 => .instr (.call o.nnn)
  | 0x3 => .instr (.seImm o.x o.kk)
  | 0x4 => .instr (.sneImm o.x o.kk)
  | 0x5 => if o.n = 0 then .instr (.seReg o.x o.y) else .noop .group5
  | 0x6 => .instr (.ldImm o.x o.kk)
  | 0x7 => .instr (.addImm o.x o.kk)
  | 0x8 => decodeGroup8 o
  | 0x9 => if o.n = 0 then .instr (.sneReg o.x o.y) else .noop .group9
  | 0xA => .instr (.ldI o.nnn)
  | 0xB => .instr (.jpV0 o.nnn)
  | 0xC => .instr (.rnd o.x o.kk)
  | 0xD => .instr (.drw o.x o.y o.n)
  | 0xE => decodeGroupE o
  | _ => decodeGroupF o

/-- The opcode of two consecutive memory bytes, big-endian: the first byte is the high one (R52). -/
def opcodeOfBytes (hi lo : Byte) : Opcode := hi ++ lo

/-- The decoder on the bytes at pc and pc + 1 (R53, R76). -/
def decodeBytes (hi lo : Byte) : Decoded := decode (opcodeOfBytes hi lo)

/-! ## The encoder (the layouts of R72) -/

/-- Layout "address": group, nnn. -/
def layoutAddr (u : BitVec 4) (nnn : Addr) : Opcode := u ++ nnn

/-- Layouts "register-immediate" and "register-subop": group, x, kk. -/
def layoutRegByte (u : BitVec 4) (x : Nibble) (kk : Byte) : Opcode := u ++ (BitVec.ofFin x : BitVec 4) ++ kk

/-- Layouts "register-register" and "draw": group, x, y, n. -/
def layoutRegReg (u : BitVec 4) (x y n : Nibble) : Opcode :=
  u ++ (BitVec.ofFin x : BitVec 4) ++ (BitVec.ofFin y : BitVec 4) ++ (BitVec.ofFin n : BitVec 4)

/-- The word of an instruction (R72, R75). -/
def encode : Instr → Opcode
  | .cls => 0x00E0
  | .ret => 0x00EE
  | .jp nnn => layoutAddr 0x1 nnn
  | .call nnn => layoutAddr 0x2 nnn
  | .seImm x kk => layoutRegByte 0x3 x kk
  | .sneImm x kk => layoutRegByte 0x4 x kk
  | .seReg x y => layoutRegReg 0x5 x y 0x0
  | .ldImm x kk => layoutRegByte 0x6 x kk
  | .addImm x kk => layoutRegByte 0x7 x kk
  | .ldReg x y => layoutRegReg 0x8 x y 0x0
  | .or x y => layoutRegReg 0x8 x y 0x1
  | .and x y => layoutRegReg 0x8 x y 0x2
  | .xor x y => layoutRegReg 0x8 x y 0x3
  | .addReg x y => layoutRegReg 0x8 x y 0x4
  | .sub x y => layoutRegReg 0x8 x y 0x5
  | .shr x y => layoutRegReg 0x8 x y 0x6
  | .subn x y => layoutRegReg 0x8 x y 0x7
  | .shl x y => layoutRegReg 0x8 x y 0xE
  | .sneReg x y => layoutRegReg 0x9 x y 0x0
  | .ldI nnn => layoutAddr 0xA nnn
  | .jpV0 nnn => layoutAddr 0xB nnn
  | .rnd x kk => layoutRegByte 0xC x kk
  | .drw x y n => layoutRegReg 0xD x y n
  | .skp x => layoutRegByte 0xE x 0x9E
  | .sknp x => layoutRegByte 0xE x 0xA1
  | .ldVxDt x => layoutRegByte 0xF x 0x07
  | .ldVxK x => layoutRegByte 0xF x 0x0A
  | .ldDtVx x => layoutRegByte 0xF x 0x15
  | .ldStVx x => layoutRegByte 0xF x 0x18
  | .addIVx x => layoutRegByte 0xF x 0x1E
  | .ldFVx x => layoutRegByte 0xF x 0x29
  | .ldBVx x => layoutRegByte 0xF x 0x33
  | .ldMemVx x => layoutRegByte 0xF x 0x55
  | .ldVxMem x => layoutRegByte 0xF x 0x65

/-! ## The opcode map as data (R75) -/

/-- One row of R75: a word selects the row when its bits under `mask` are `pattern`. -/
structure OpcodeRow where
  mnemonic : String
  pattern : Opcode
  mask : Opcode
deriving DecidableEq, Repr

/-- `o & mask = match` (R75). -/
def OpcodeRow.selects (row : OpcodeRow) (o : Opcode) : Bool := o &&& row.mask == row.pattern

/-- Groups 0 to 7 of R75. -/
def opcodeRowsLow : List OpcodeRow :=
  [⟨"CLS", 0x00E0, 0xFFFF⟩, ⟨"RET", 0x00EE, 0xFFFF⟩, ⟨"JP_nnn", 0x1000, 0xF000⟩, ⟨"CALL_nnn", 0x2000, 0xF000⟩,
   ⟨"SE_Vx__kk", 0x3000, 0xF000⟩, ⟨"SNE_Vx__kk", 0x4000, 0xF000⟩, ⟨"SE_Vx__Vy", 0x5000, 0xF00F⟩,
   ⟨"LD_Vx__kk", 0x6000, 0xF000⟩, ⟨"ADD_Vx__kk", 0x7000, 0xF000⟩]

/-- Groups 8 to D of R75. -/
def opcodeRowsMid : List OpcodeRow :=
  [⟨"LD_Vx__Vy", 0x8000, 0xF00F⟩, ⟨"OR_Vx__Vy", 0x8001, 0xF00F⟩, ⟨"AND_Vx__Vy", 0x8002, 0xF00F⟩,
   ⟨"XOR_Vx__Vy", 0x8003, 0xF00F⟩, ⟨"ADD_Vx__Vy", 0x8004, 0xF00F⟩, ⟨"SUB_Vx__Vy", 0x8005, 0xF00F⟩,
   ⟨"SHR_Vx__Vy", 0x8006, 0xF00F⟩, ⟨"SUBN_Vx__Vy", 0x8007, 0xF00F⟩, ⟨"SHL_Vx__Vy", 0x800E, 0xF00F⟩,
   ⟨"SNE_Vx__Vy", 0x9000, 0xF00F⟩, ⟨"LD_I__nnn", 0xA000, 0xF000⟩, ⟨"JP_V0__nnn", 0xB000, 0xF000⟩,
   ⟨"RND_Vx__kk", 0xC000, 0xF000⟩, ⟨"DRW_Vx__Vy__n", 0xD000, 0xF000⟩]

/-- Groups E and F of R75. -/
def opcodeRowsHigh : List OpcodeRow :=
  [⟨"SKP_Vx", 0xE09E, 0xF0FF⟩, ⟨"SKNP_Vx", 0xE0A1, 0xF0FF⟩, ⟨"LD_Vx__DT", 0xF007, 0xF0FF⟩,
   ⟨"LD_Vx__K", 0xF00A, 0xF0FF⟩, ⟨"LD_DT__Vx", 0xF015, 0xF0FF⟩, ⟨"LD_ST__Vx", 0xF018, 0xF0FF⟩,
   ⟨"ADD_I__Vx", 0xF01E, 0xF0FF⟩, ⟨"LD_F__Vx", 0xF029, 0xF0FF⟩, ⟨"LD_B__Vx", 0xF033, 0xF0FF⟩,
   ⟨"LD__I___Vx", 0xF055, 0xF0FF⟩, ⟨"LD_Vx___I", 0xF065, 0xF0FF⟩]

/-- The opcode map: 34 rows (R75). -/
def opcodeRows : List OpcodeRow := opcodeRowsLow ++ opcodeRowsMid ++ opcodeRowsHigh

/-- The mnemonic of an instruction's row in spec/opcode_table.json. -/
def Instr.mnemonic : Instr → String
  | .cls => "CLS"
  | .ret => "RET"
  | .jp _ => "JP_nnn"
  | .call _ => "CALL_nnn"
  | .seImm _ _ => "SE_Vx__kk"
  | .sneImm _ _ => "SNE_Vx__kk"
  | .seReg _ _ => "SE_Vx__Vy"
  | .ldImm _ _ => "LD_Vx__kk"
  | .addImm _ _ => "ADD_Vx__kk"
  | .ldReg _ _ => "LD_Vx__Vy"
  | .or _ _ => "OR_Vx__Vy"
  | .and _ _ => "AND_Vx__Vy"
  | .xor _ _ => "XOR_Vx__Vy"
  | .addReg _ _ => "ADD_Vx__Vy"
  | .sub _ _ => "SUB_Vx__Vy"
  | .shr _ _ => "SHR_Vx__Vy"
  | .subn _ _ => "SUBN_Vx__Vy"
  | .shl _ _ => "SHL_Vx__Vy"
  | .sneReg _ _ => "SNE_Vx__Vy"
  | .ldI _ => "LD_I__nnn"
  | .jpV0 _ => "JP_V0__nnn"
  | .rnd _ _ => "RND_Vx__kk"
  | .drw _ _ _ => "DRW_Vx__Vy__n"
  | .skp _ => "SKP_Vx"
  | .sknp _ => "SKNP_Vx"
  | .ldVxDt _ => "LD_Vx__DT"
  | .ldVxK _ => "LD_Vx__K"
  | .ldDtVx _ => "LD_DT__Vx"
  | .ldStVx _ => "LD_ST__Vx"
  | .addIVx _ => "ADD_I__Vx"
  | .ldFVx _ => "LD_F__Vx"
  | .ldBVx _ => "LD_B__Vx"
  | .ldMemVx _ => "LD__I___Vx"
  | .ldVxMem _ => "LD_Vx___I"

/-- The word that the table's bit numbering makes of `w`: bits at `nbits` and above are 0. -/
def tableOpcode (nbits w : Nat) : Opcode := BitVec.ofNat 16 (w % 2 ^ nbits)

/-- The instruction the decoder reads from a table word laid out as two bytes, high byte first; `none` for a word
of the no-op space, which is no instruction of the table (R80). -/
def decodeTableWord (nbits w : Nat) : Option Instr :=
  match decodeBytes ((tableOpcode nbits w).extractLsb' 8 8) ((tableOpcode nbits w).extractLsb' 0 8) with
  | .instr i => some i
  | .noop _ => none

end Sys2Proof
end

