-- ==== Sys2Proof/Machine/Fetch.lean ====
section
/-! DEFINITION. Fetching the opcode at pc, and storing one there (spec/20_memory.md R52, R53). -/
namespace Sys2Proof.Machine

/-- `o = M[pc] * 256 + M[(pc + 1) mod 4096]` (R53, R91). -/
def State.fetch (s : State) : Opcode := opcodeOfBytes (s.memRead s.pc.toNat) (s.memRead (s.pc.toNat + 1))

/-- What the word at pc decodes to (R91, R93). -/
def State.fetchDecode (s : State) : Decoded := decode s.fetch

/-- Store an opcode at pc, big-endian (R52, R53). -/
def State.storeOpcode (s : State) (o : Opcode) : State :=
  (s.memWrite s.pc.toNat (o.extractLsb' 8 8)).memWrite (s.pc.toNat + 1) (o.extractLsb' 0 8)

end Sys2Proof.Machine
end

