-- ==== Sys2Proof/Machine/Step.lean ====
section
/-! DEFINITION. One Step of the block (spec/40_execution_cycle.md R90 to R96). -/
namespace Sys2Proof.Machine

/-- Run one decoded word in a state whose pc is already advanced: an instruction's body, or the empty body of a
no-op (R93, R95). -/
def execDecoded (d : Decoded) (s : State) : Host.Outcome State Fault Refusal :=
  match d with
  | .instr i => exec i s
  | .noop _ => .next s

/-- Step: held while W ≠ none (R90); else fetch, advance pc, decode, run (R91 to R93, R96). -/
def step (s : State) : Host.Outcome State Fault Refusal :=
  match s.waiting with
  | some _ => .refused .heldForKey
  | none => execDecoded s.fetchDecode s.nextWord

/-- `s` with a table word stored where the next Step fetches: the high byte at pc, the low byte at pc + 1 (R53), and
W = none, without which the next Step fetches nothing (R90). Log entries 7 and 14. -/
def State.withFetchWord (s : State) (nbits w : Nat) : State :=
  (s.storeOpcode (tableOpcode nbits w)).setWaiting none

end Sys2Proof.Machine
end

