-- ==== Sys2Proof/WellFormed.lean ====
section
/-! DEFINITION. The checks on data that types do not make. An instruction has none: every operand of `Instr` is
typed by its field's width, and R74 leaves no operand value out. What can be ill-formed is a parameter set (R5) and
a ROM that does not fit (R245). Log entry 11. -/
namespace Sys2Proof

/-- The legal values of the parameters (R5): STACK_DEPTH is 12 to 16; every other legal range is the type's. -/
def Params.wellFormed (cfg : Params) : Bool :=
  decide (12 ≤ cfg.stackDepth) && decide (cfg.stackDepth ≤ 16)

/-- A ROM that Reset accepts: at most 4096 - LOAD_ADDR bytes (R243, R245). -/
def romFits (cfg : Params) (rom : List Byte) : Bool :=
  decide (rom.length ≤ memSize - cfg.loadAddr.toNat)

/-- A Reset the host may ask for (R5, R227). -/
def resetWellFormed (cfg : Params) (rom : List Byte) : Bool :=
  cfg.wellFormed && romFits cfg rom

end Sys2Proof
end

