-- ==== Sys2Proof/Machine/HostOps.lean ====
section
/-! DEFINITION. The operations the host applies to the block beside Step, the block's outputs, and a schedule of
operations (spec/00_scope.md R17, spec/60_exceptions.md, spec/70_reset_and_hazards.md). Log entry 6. -/
namespace Sys2Proof.Machine

/-- One timer's part of Tick: a timer at 0 stays at 0 (R220). -/
def timerDown (t : Byte) : Byte := if t = 0 then 0 else t - 1

/-- Tick (R220). -/
def State.tick (s : State) : State := (s.setDt (timerDown s.dt)).setSt (timerDown s.st)

/-- KeyDown(k): the key is pressed; a key wait ends with the key code in its register (R222, R196). -/
def State.keyDown (s : State) (k : Nibble) : State :=
  match s.waiting with
  | none => s.setKey k true
  | some x => ((s.setKey k true).setReg x (BitVec.ofNat 8 k.val)).setWaiting none

/-- KeyUp(k) (R223). -/
def State.keyUp (s : State) (k : Nibble) : State := s.setKey k false

/-- Reset(rom): every element at its reset value and the ROM at LOAD_ADDR, after the font, or a refused load
(R240, R243 to R245). -/
def State.resetWith (cfg : Params) (rom : List Byte) : Host.Outcome State Fault Refusal :=
  if romFits cfg rom then .next (State.loadBytes rom cfg.loadAddr.toNat (State.initial cfg))
  else .refused .romTooLong

/-- The sound output `ST > 0` (R224). -/
def State.soundOut (s : State) : Bool := decide (s.st.toNat > 0)

/-- The display output: the whole of D, row-major (R225). -/
def State.displayOut (s : State) : Display := s.display

/-- The output W ≠ none (R17). -/
def State.waitOut (s : State) : Bool := s.waiting.isSome

/-- The operations the block accepts, one at a time, each atomic (R17, R212). -/
inductive HostOp where
  | reset (cfg : Params) (rom : List Byte)
  | step
  | tick
  | keyDown (k : Nibble)
  | keyUp (k : Nibble)
deriving DecidableEq, Repr

/-- One operation on the block (R17). -/
def HostOp.apply (op : HostOp) (s : State) : Host.Outcome State Fault Refusal :=
  match op with
  | .reset cfg rom => State.resetWith cfg rom
  | .step => Sys2Proof.Machine.step s
  | .tick => .next s.tick
  | .keyDown k => .next (s.keyDown k)
  | .keyUp k => .next (s.keyUp k)

/-- The host's schedule: operations in a total order, stopping at a refused one (R221). -/
def HostOp.run : List HostOp → State → Host.Outcome State Fault Refusal
  | [], s => .next s
  | op :: ops, s =>
    match op.apply s with
    | .next t => HostOp.run ops t
    | .fault e => .fault e
    | .refused e => .refused e

end Sys2Proof.Machine
end

