-- ==== Sys2Proof/Machine/Packed.lean ====
section
/-! DEFINITION. The packed display of spec/44_display.md R179: one bit per pixel in 256 bytes, a sprite row XORed
into two bytes. It is no state of the machine (R31); a statement compares it with the blitter of R173. Log 16. -/
namespace Sys2Proof.Machine

/-- Row r is bytes 8r .. 8r + 7 (R179). -/
abbrev PackedDisplay := Vector Byte 256

/-- Pixel (r, c) is bit `7 - (c mod 8)` of byte `8r + c / 8` (R179). -/
def PackedDisplay.pixel (p : PackedDisplay) (r : Fin 32) (c : Fin 64) : Bool :=
  (p.get (Fin.ofNat 256 (8 * r.val + c.val / 8))).getLsbD (7 - c.val % 8)

/-- What the packed blitter carries. -/
structure PackedBlit where
  bytes : PackedDisplay
  hit : Bool
deriving DecidableEq, Repr

/-- XOR byte `b` into byte `j`; `hit` if a bit that is 1 in both goes to 0 (R179, R174). -/
def packedXor (j : Fin 256) (b : Byte) (p : PackedBlit) : PackedBlit :=
  { bytes := p.bytes.set j (p.bytes.get j ^^^ b), hit := p.hit || decide (p.bytes.get j &&& b ≠ 0) }

/-- The byte of `row` that sprite half `h` (0 or 1) of a sprite at column `cx` falls into (R179). -/
def packedByte (cx : Byte) (row : Fin 32) (h : Nat) : Fin 256 :=
  Fin.ofNat 256 (8 * row.val + ((cx.toNat % 64) / 8 + h) % 8)

/-- One sprite row: `b >> (cx mod 8)`, then `(b << (8 - cx mod 8)) mod 256` into the next byte of the row (R179). -/
def packedBlitRow (cx cy b : Byte) (r : Nat) (p : PackedBlit) : PackedBlit :=
  packedXor (packedByte cx (pixelRow cy r) 1) (BitVec.ofNat 8 (b.toNat * 2 ^ (8 - cx.toNat % 8)))
    (packedXor (packedByte cx (pixelRow cy r) 0) (BitVec.ofNat 8 (b.toNat / 2 ^ (cx.toNat % 8))) p)

/-- The first `n` sprite rows (R179). -/
def packedBlitRows (sprite : Nat → Byte) (cx cy : Byte) : Nat → PackedBlit → PackedBlit
  | 0, p => p
  | r + 1, p => packedBlitRow cx cy (sprite r) r (packedBlitRows sprite cx cy r p)

end Sys2Proof.Machine
end

