-- ==== Sys2Proof/Safety.lean ====
section
/-! DEFINITION. The terms in which statements are made: the invariant of the state, what an operation leaves
unchanged, the register ports, and the closed form of a sprite. -/
namespace Sys2Proof

/-- The word of `i` has the pattern under the mask of its row (R75), and decodes to `i` with every operand. -/
def Instr.HasWord (i : Instr) (pattern mask : Opcode) : Prop :=
  encode i &&& mask = pattern ∧ decode (encode i) = .instr i

/-- The "writes" column of R23: the V registers an instruction may write. -/
def Instr.writes : Instr → List Nibble
  | .ldImm x _ | .addImm x _ | .ldReg x _ | .or x _ | .and x _ | .xor x _ | .rnd x _ | .ldVxDt x => [x]
  | .addReg x _ | .sub x _ | .shr x _ | .subn x _ | .shl x _ => [x, Machine.vf]
  | .drw _ _ _ | .addIVx _ => [Machine.vf]
  | .ldVxMem x => (List.finRange 16).filter (fun r => decide (r ≤ x))
  | .cls | .ret | .jp _ | .call _ | .seImm _ _ | .sneImm _ _ | .seReg _ _ | .sneReg _ _ | .ldI _ | .jpV0 _
  | .skp _ | .sknp _ | .ldVxK _ | .ldDtVx _ | .ldStVx _ | .ldFVx _ | .ldBVx _ | .ldMemVx _ => []

/-- The "reads" column of R23: the V registers an instruction reads, for the shift source of `cfg`. -/
def Instr.reads (cfg : Params) : Instr → List Nibble
  | .seImm x _ | .sneImm x _ | .addImm x _ | .skp x | .sknp x | .ldDtVx x | .ldStVx x | .addIVx x | .ldFVx x
  | .ldBVx x => [x]
  | .seReg x y | .sneReg x y | .or x y | .and x y | .xor x y | .addReg x y | .sub x y | .subn x y
  | .drw x y _ => [x, y]
  | .ldReg _ y => [y]
  | .shr x y | .shl x y => match cfg.shiftSrc with
    | .vy => [y]
    | .vx => [x]
  | .jpV0 _ => [0]
  | .ldMemVx x => (List.finRange 16).filter (fun r => decide (r ≤ x))
  | .cls | .ret | .jp _ | .call _ | .ldImm _ _ | .ldI _ | .rnd _ _ | .ldVxDt _ | .ldVxK _ | .ldVxMem _ => []

/-- The no-op words: the table of R80, pattern by pattern. -/
def InNoOpSpace (o : Opcode) : Prop :=
  (o.u = 0x0 ∧ o.nnn ≠ 0x0E0 ∧ o.nnn ≠ 0x0EE) ∨
  (o.u = 0x5 ∧ o.n ≠ 0) ∨
  (o.u = 0x8 ∧ o.n ∈ ([0x8, 0x9, 0xA, 0xB, 0xC, 0xD, 0xF] : List Nibble)) ∨
  (o.u = 0x9 ∧ o.n ≠ 0) ∨
  (o.u = 0xE ∧ o.kk ≠ 0x9E ∧ o.kk ≠ 0xA1) ∨
  (o.u = 0xF ∧ o.kk ∉ ([0x07, 0x0A, 0x15, 0x18, 0x1E, 0x29, 0x33, 0x55, 0x65] : List Byte))

namespace Machine

/-- The invariant of the state (R34, R26, R27, R5), with the canonical form of memory; the other ranges of R34 are
the types'. -/
abbrev State.Inv (s : State) : Prop :=
  s.cfg.wellFormed = true ∧ s.stack.length = s.cfg.stackDepth ∧ s.sp < s.cfg.stackDepth ∧ s.mem.wf s.cfg = true

/-- The parts of the state (R12). -/
inductive Part where
  | cfg | regs | index | pc | stack | sp | delay | sound | keys | waiting | display | memory | draws
deriving DecidableEq, Repr

/-- The part has the same content in `s` and `t`: registers by reading each, memory by reading each byte. -/
def Part.Same (p : Part) (s t : State) : Prop :=
  match p with
  | .cfg => t.cfg = s.cfg
  | .regs => ∀ x, t.reg x = s.reg x
  | .index => t.i = s.i
  | .pc => t.pc = s.pc
  | .stack => t.stack = s.stack
  | .sp => t.sp = s.sp
  | .delay => t.dt = s.dt
  | .sound => t.st = s.st
  | .keys => t.keys = s.keys
  | .waiting => t.waiting = s.waiting
  | .display => t.display = s.display
  | .memory => ∀ a, t.memRead a = s.memRead a
  | .draws => t.draws = s.draws

/-- The frame: every part but the listed ones is unchanged. -/
def Unchanged (changed : List Part) (s t : State) : Prop := ∀ p, p ∉ changed → p.Same s t

/-- Every V register but the listed ones is unchanged. -/
def RegsUnchangedBut (changed : List Nibble) (s t : State) : Prop := ∀ x, x ∉ changed → t.reg x = s.reg x

/-- Every byte outside the `len` bytes at `base` (mod 4096) is unchanged. -/
def BytesUnchangedOutside (base len : Nat) (s t : State) : Prop :=
  ∀ a, (∀ k, k < len → a % memSize ≠ (base + k) % memSize) → t.memRead a = s.memRead a

/-- Every stack slot but `j` is unchanged. -/
def SlotsUnchangedBut (j : Nat) (s t : State) : Prop := ∀ k, k ≠ j → t.slot k = s.slot k

/-- Sprite bit (dr, dc) of an `n`-row sprite is 1 and lands on pixel (r, c) (R172, R173, R175). -/
def SpriteCovers (sprite : Nat → Byte) (cx cy : Byte) (n : Nat) (r : Fin 32) (c : Fin 64) : Prop :=
  ∃ dr dc : Nat, dr < n ∧ dc < 8 ∧ (sprite dr).getLsbD (7 - dc) = true ∧
    (cy.toNat + dr) % 32 = r.val ∧ (cx.toNat + dc) % 64 = c.val

/-- Some pixel the sprite covers is 1 before the draw: it goes from 1 to 0 (R174). -/
def SpriteHits (s : State) (cx cy : Byte) (n : Nat) : Prop :=
  ∃ r c, SpriteCovers s.spriteByte cx cy n r c ∧ s.display.pixel r c = true

/-- The condition an instruction writes to VF as a flag, where it writes one: the table of R22. -/
def flagCondition (s : State) : Instr → Option Prop
  | .addReg x y => some ((s.reg x).toNat + (s.reg y).toNat > 255)
  | .sub x y => some ((s.reg x).toNat ≥ (s.reg y).toNat)
  | .shr x y => some ((s.shiftOperand x y).toNat % 2 = 1)
  | .subn x y => some ((s.reg y).toNat ≥ (s.reg x).toNat)
  | .shl x y => some ((s.shiftOperand x y).toNat / 128 = 1)
  | .addIVx x => some (s.i.toNat + (s.reg x).toNat > 0xFFF)
  | .drw x y n => some (SpriteHits s (s.reg x) (s.reg y) n.val)
  | .cls | .ret | .jp _ | .call _ | .seImm _ _ | .sneImm _ _ | .seReg _ _ | .sneReg _ _ | .ldImm _ _ | .addImm _ _
  | .ldReg _ _ | .or _ _ | .and _ _ | .xor _ _ | .ldI _ | .jpV0 _ | .rnd _ _ | .skp _ | .sknp _ | .ldVxDt _ | .ldVxK _
  | .ldDtVx _ | .ldStVx _ | .ldFVx _ | .ldBVx _ | .ldMemVx _ | .ldVxMem _ => none

/-- Calls run one after another, the k-th from a state whose advanced pc is its first component, to its second
component; `t` is where they end (R102, R109). -/
def CallsRun : List (Addr × Addr) → State → State → Prop
  | [], s, t => t = s
  | (from_, to_) :: calls, s, t => ∃ u, exec (.call to_) (s.setPc from_) = .next u ∧ CallsRun calls u t

/-- Returns run one after another, and go to the listed addresses in order (R100, R109). -/
def ReturnsRun : List Addr → State → Prop
  | [], _ => True
  | a :: as, s => ∃ u, exec .ret s = .next u ∧ u.pc = a ∧ ReturnsRun as u

/-- The bits of an `n`-row sprite, as (row, column offset) pairs (R172). -/
def spriteBits (n : Nat) : List (Nat × Nat) :=
  (List.range n).flatMap (fun r => (List.range 8).map (fun c => (r, c)))

/-- A packed display shows a display (R179). -/
def Shows (p : PackedDisplay) (d : Display) : Prop := ∀ r c, p.pixel r c = d.pixel r c

end Machine
end Sys2Proof
end

