-- ==== Sys2Proof/Certificates/Slice0/Obligations.lean ====
section
/-! DEFINITION. The statements about the model, each a rule of spec/ or derived from rules. `exec i s` is the body of
`i` in a state whose pc the fetch has already advanced (R92). -/

open Sys2Proof Sys2Proof.Machine

/-! ## Encoding and decode (spec/30_encoding.md) -/

/-- Decoding the encoded word of any instruction gives that instruction, every operand at every value (R72, R75,
R76). -/
def Obligations.DecodeAfterEncodeIsIdentity : Prop :=
  ∀ i : Instr, decode (encode i) = .instr i

/-- A word that decodes to an instruction is that instruction's encoding: no bit is ignored (R74). -/
def Obligations.EncodeAfterDecodeIsIdentity : Prop :=
  ∀ (o : Opcode) (i : Instr), decode o = .instr i → encode i = o

/-- A word selects a row of the opcode map exactly when it decodes to an instruction of that row (R75). -/
def Obligations.DecodeAgreesWithOpcodeMap : Prop :=
  ∀ o : Opcode, ∀ row ∈ opcodeRows,
    row.selects o = true ↔ ∃ i, decode o = .instr i ∧ i.mnemonic = row.mnemonic

/-- No word matches two rows of the opcode map (R77). -/
def Obligations.NoWordMatchesTwoRows : Prop :=
  ∀ o : Opcode, ∀ r₁ ∈ opcodeRows, ∀ r₂ ∈ opcodeRows, r₁.selects o = true → r₂.selects o = true → r₁ = r₂

/-- The words that match no row are exactly the patterns of R80, and a step on one only advances pc (R80, R95). -/
def Obligations.UnassignedWordsAreNoOps : Prop :=
  ∀ o : Opcode,
    ((∀ row ∈ opcodeRows, row.selects o = false) ↔ InNoOpSpace o) ∧
    ∀ s : State, s.waiting = none → s.fetch = o → InNoOpSpace o →
      step s = .next (s.setPc (BitVec.ofNat 12 ((s.pc.toNat + 2) % 4096)))

/-- Words written out from the layouts of R72 and the map of R75 decode to the instructions they stand for, one or
more of every family. -/
def Obligations.SampleWordsDecode : Prop :=
  decode 0b0000000011101110#16 = .instr .ret ∧
  decode 0b0010001100000001#16 = .instr (.call 0x301) ∧
  decode 0b0011101000111100#16 = .instr (.seImm 0xA 0x3C) ∧
  decode 0b1000000111110100#16 = .instr (.addReg 0x1 0xF) ∧
  decode 0b1100001100001111#16 = .instr (.rnd 0x3 0x0F) ∧
  decode 0b1111010100110011#16 = .instr (.ldBVx 0x5) ∧
  decode 0b1101000100100101#16 = .instr (.drw 0x1 0x2 0x5) ∧
  decode 0b1110000110100001#16 = .instr (.sknp 0x1) ∧
  decode 0b1111001100001010#16 = .instr (.ldVxK 0x3)

/-! ## The execution cycle (spec/40_execution_cycle.md, spec/20_memory.md) -/

/-- When the word at pc decodes to `i`, the step is the body of `i` in the state with pc advanced by 2 mod 4096
(R92, R93). -/
def Obligations.StepRunsTheDecodedInstruction : Prop :=
  ∀ (s : State) (i : Instr), s.waiting = none → decode s.fetch = .instr i →
    step s = exec i (s.setPc (BitVec.ofNat 12 ((s.pc.toNat + 2) % 4096)))

/-- While W ≠ none Step has no transition and is no fault, Tick, KeyDown and KeyUp stay enabled, and of these only
KeyDown clears W (R90). -/
def Obligations.StepIsHeldWhileWaiting : Prop :=
  ∀ (s : State) (x : Nibble), s.waiting = some x →
    (∀ t, HostOp.step.apply s ≠ .next t) ∧ (∀ e, HostOp.step.apply s ≠ .fault e) ∧
    (∃ t, HostOp.tick.apply s = .next t ∧ t.waiting = some x) ∧
    (∀ k, ∃ t, (HostOp.keyUp k).apply s = .next t ∧ t.waiting = some x) ∧
    (∀ k, ∃ t, (HostOp.keyDown k).apply s = .next t ∧ t.waiting = none)

/-- The opcode is the byte at pc times 256 plus the byte at pc + 1 mod 4096, at any pc, odd or even (R53). -/
def Obligations.FetchIsBigEndianAndWraps : Prop :=
  ∀ s : State, s.fetch.toNat = (s.memRead s.pc.toNat).toNat * 256 + (s.memRead ((s.pc.toNat + 1) % 4096)).toNat

/-- A step never faults; it completes unless the block waits for a key (R98). -/
def Obligations.StepCompletesUnlessHeld : Prop :=
  ∀ s : State, ((∃ t, step s = .next t) ↔ s.waiting = none) ∧ (∀ e, step s ≠ .fault e)

/-- A self-jump is a fixed point of Step (R99). -/
def Obligations.SelfJumpIsFixedPoint : Prop :=
  ∀ s : State, s.waiting = none → s.fetch = (0x1#4 ++ s.pc) → step s = .next s

/-- Every step keeps the invariant: STACK_DEPTH legal, one slot per depth, SP an index of a slot, memory canonical
(R34). -/
def Obligations.EveryStepKeepsTheInvariant : Prop :=
  ∀ s t : State, s.Inv → step s = .next t → t.Inv

/-- The state after reset meets the invariant. -/
def Obligations.ResetMeetsTheInvariant : Prop := State.reset.Inv

/-- Every schedule of host operations keeps the invariant, a Reset among them with legal parameters (R34, R221). -/
def Obligations.EveryScheduleKeepsTheInvariant : Prop :=
  ∀ (ops : List HostOp) (s t : State), s.Inv → (∀ cfg rom, HostOp.reset cfg rom ∈ ops → cfg.wellFormed = true) →
    HostOp.run ops s = .next t → t.Inv

/-- The parameters are fixed at Reset: a Reset sets them to those it is given, and no schedule without a Reset
changes them (R246). -/
def Obligations.ParametersAreFixedAtReset : Prop :=
  (∀ cfg rom t, State.resetWith cfg rom = .next t → t.cfg = cfg) ∧
  ∀ (ops : List HostOp) (s t : State), (∀ cfg rom, HostOp.reset cfg rom ∉ ops) → HostOp.run ops s = .next t →
    t.cfg = s.cfg

/-- A word at pc that a table word's bits give is what the next step runs, in the sense of `withFetchWord`; the
model's own (log 7, log 14). -/
def Obligations.FetchWordIsWhatTheNextStepRuns : Prop :=
  ∀ (s : State) (w : Nat) (i : Instr), s.Inv → decodeTableWord 16 w = some i →
    step (s.withFetchWord 16 w) = exec i ((s.withFetchWord 16 w).setPc (s.pc + 2))

/-! ## Whole-machine rules -/

/-- An operation other than Reset that changes a byte of memory is a step of Fx33, on one of I .. I + 2, or of Fx55,
on one of I .. I + x (R55, R60). -/
def Obligations.OnlyStoresWriteMemory : Prop :=
  ∀ (op : HostOp) (s t : State) (a : Nat), (∀ cfg rom, op ≠ .reset cfg rom) → op.apply s = .next t →
    t.memRead a ≠ s.memRead a →
    op = .step ∧ ∃ x : Nibble, ∃ k : Nat, a % 4096 = (s.i.toNat + k) % 4096 ∧
      ((decode s.fetch = .instr (.ldBVx x) ∧ k < 3) ∨ (decode s.fetch = .instr (.ldMemVx x) ∧ k < x.val + 1))

/-- An operation other than Reset that changes the display is a step of 00E0 or Dxyn (R31). -/
def Obligations.OnlyClearAndDrawChangeTheDisplay : Prop :=
  ∀ (op : HostOp) (s t : State), (∀ cfg rom, op ≠ .reset cfg rom) → op.apply s = .next t → t.display ≠ s.display →
    op = .step ∧ (decode s.fetch = .instr .cls ∨ ∃ x y n, decode s.fetch = .instr (.drw x y n))

/-- An operation other than Reset that changes a slot or SP is a step of 2nnn or 00EE, and a slot only of 2nnn
(R26). -/
def Obligations.OnlyCallAndReturnReachTheStack : Prop :=
  ∀ (op : HostOp) (s t : State), (∀ cfg rom, op ≠ .reset cfg rom) → op.apply s = .next t →
    (t.stack ≠ s.stack → op = .step ∧ ∃ nnn, decode s.fetch = .instr (.call nnn)) ∧
    (t.sp ≠ s.sp → op = .step ∧ (decode s.fetch = .instr .ret ∨ ∃ nnn, decode s.fetch = .instr (.call nnn)))

/-- An operation other than Reset that changes K is KeyDown or KeyUp; one that changes W is a step of Fx0A, to its
register, or KeyDown, to none (R29, R30). -/
def Obligations.KeypadChangesOnlyByHostOrKeyWait : Prop :=
  ∀ (op : HostOp) (s t : State), (∀ cfg rom, op ≠ .reset cfg rom) → op.apply s = .next t →
    (t.keys ≠ s.keys → ∃ k, op = .keyDown k ∨ op = .keyUp k) ∧
    (t.waiting ≠ s.waiting → (∃ x, op = .step ∧ decode s.fetch = .instr (.ldVxK x) ∧ t.waiting = some x) ∨
      (∃ k, op = .keyDown k ∧ t.waiting = none))

/-- The register ports of R23: registers outside the "writes" column are unchanged, and a register outside the
"reads" column has no effect on anything but itself. The second clause compares two runs from states with the same draw
counter, so for Cxkk, Ex9E and ExA1 it says so with the step's draw held equal, a DESIGN CHOICE of the model (log 3). -/
def Obligations.RegisterPortsAreAsListed : Prop :=
  ∀ (i : Instr) (s : State),
    (∃ t, exec i s = .next t ∧ RegsUnchangedBut i.writes s t) ∧
    ∀ (r : Nibble) (b : Byte), r ∉ i.reads s.cfg →
      ∃ t u, exec i s = .next t ∧ exec i (s.setReg r b) = .next u ∧
        (r ∈ i.writes → u = t) ∧ (r ∉ i.writes → u = t.setReg r b)

/-- VF as a flag: the instructions of R22 write 1 when their condition holds, else 0; every other instruction leaves
VF unchanged unless VF is a destination register (R22). -/
def Obligations.VfIsWrittenAsListed : Prop :=
  ∀ (i : Instr) (s : State), ∃ t, exec i s = .next t ∧
    (∀ p, flagCondition s i = some p → (p → t.reg vf = 1) ∧ (¬p → t.reg vf = 0)) ∧
    (flagCondition s i = none → vf ∉ i.writes → t.reg vf = s.reg vf)

/-! ## Control transfer (spec/41_control_transfer.md) -/

/-- 00EE (R100). -/
def Obligations.ReturnPopsTheStack : Prop :=
  ∀ s : State, s.Inv →
    Instr.ret.HasWord 0x00EE 0xFFFF ∧
    ∃ t, exec .ret s = .next t ∧
      t.pc = s.slot s.sp ∧ t.sp = (s.sp + s.cfg.stackDepth - 1) % s.cfg.stackDepth ∧ Unchanged [.pc, .sp] s t

/-- 1nnn and Bnnn (R101, R103). -/
def Obligations.JumpsSetPc : Prop :=
  ∀ (nnn : Addr) (s : State),
    (Instr.jp nnn).HasWord 0x1000 0xF000 ∧ (Instr.jpV0 nnn).HasWord 0xB000 0xF000 ∧
    (∃ t, exec (.jp nnn) s = .next t ∧ t.pc = nnn ∧ Unchanged [.pc] s t) ∧
    (∃ t, exec (.jpV0 nnn) s = .next t ∧ t.pc.toNat = (nnn.toNat + (s.reg 0).toNat) % 4096 ∧ Unchanged [.pc] s t)

/-- 2nnn: SP is incremented modulo STACK_DEPTH, the slot at the new SP receives the advanced pc, pc is nnn (R102). -/
def Obligations.CallPushesTheReturnAddress : Prop :=
  ∀ (nnn : Addr) (s : State), s.Inv →
    (Instr.call nnn).HasWord 0x2000 0xF000 ∧
    ∃ t, exec (.call nnn) s = .next t ∧
      t.sp = (s.sp + 1) % s.cfg.stackDepth ∧ t.slot t.sp = s.pc ∧ SlotsUnchangedBut t.sp s t ∧
      t.stack.length = s.stack.length ∧ t.pc = nnn ∧ Unchanged [.pc, .sp, .stack] s t

/-- 3xkk, 4xkk, 5xy0 and 9xy0: pc moves by 2 more exactly when the comparison holds (R104, R105, R106, R107); 5xyn and
9xyn with n ≠ 0 are no-ops. -/
def Obligations.SkipsFollowTheComparison : Prop :=
  ∀ (x y : Nibble) (kk : Byte) (s : State),
    (Instr.seImm x kk).HasWord 0x3000 0xF000 ∧ (Instr.sneImm x kk).HasWord 0x4000 0xF000 ∧
    (Instr.seReg x y).HasWord 0x5000 0xF00F ∧ (Instr.sneReg x y).HasWord 0x9000 0xF00F ∧
    (∀ n : Nibble, n ≠ 0 → (∃ g, decode (layoutRegReg 0x5 x y n) = .noop g) ∧
      ∃ g, decode (layoutRegReg 0x9 x y n) = .noop g) ∧
    (∃ t, exec (.seImm x kk) s = .next t ∧
      t.pc.toNat = (if s.reg x = kk then (s.pc.toNat + 2) % 4096 else s.pc.toNat) ∧ Unchanged [.pc] s t) ∧
    (∃ t, exec (.sneImm x kk) s = .next t ∧
      t.pc.toNat = (if s.reg x ≠ kk then (s.pc.toNat + 2) % 4096 else s.pc.toNat) ∧ Unchanged [.pc] s t) ∧
    (∃ t, exec (.seReg x y) s = .next t ∧
      t.pc.toNat = (if s.reg x = s.reg y then (s.pc.toNat + 2) % 4096 else s.pc.toNat) ∧ Unchanged [.pc] s t) ∧
    (∃ t, exec (.sneReg x y) s = .next t ∧
      t.pc.toNat = (if s.reg x ≠ s.reg y then (s.pc.toNat + 2) % 4096 else s.pc.toNat) ∧ Unchanged [.pc] s t)

/-- Up to STACK_DEPTH outstanding calls return each to its own caller, and one call more overwrites the return
address of the first (R109). -/
def Obligations.NestedCallsReturnToTheirCallers : Prop :=
  ∀ (s : State) (calls : List (Addr × Addr)), s.Inv →
    (calls.length ≤ s.cfg.stackDepth →
      ∃ t, CallsRun calls s t ∧ t.cfg = s.cfg ∧ ReturnsRun (calls.map Prod.fst).reverse t) ∧
    (∀ last, calls.length = s.cfg.stackDepth →
      ∃ t, CallsRun (calls ++ [last]) s t ∧
        ReturnsRun (last.1 :: (calls.map Prod.fst).tail.reverse ++ [last.1]) t)

/-! ## Register loads, arithmetic and logic (spec/42_register_alu.md) -/

/-- 6xkk and 7xkk (R120, R121): no flag. -/
def Obligations.ImmediateLoadAndAdd : Prop :=
  ∀ (x : Nibble) (kk : Byte) (s : State),
    (Instr.ldImm x kk).HasWord 0x6000 0xF000 ∧ (Instr.addImm x kk).HasWord 0x7000 0xF000 ∧
    (∃ t, exec (.ldImm x kk) s = .next t ∧
      t.reg x = kk ∧ RegsUnchangedBut [x] s t ∧ Unchanged [.regs] s t) ∧
    (∃ t, exec (.addImm x kk) s = .next t ∧
      (t.reg x).toNat = ((s.reg x).toNat + kk.toNat) % 256 ∧ RegsUnchangedBut [x] s t ∧ Unchanged [.regs] s t)

/-- 8xy0 to 8xy3 (R122, R123, R124, R125): VF is written only as the destination (R126). -/
def Obligations.CopyAndBitwiseLogic : Prop :=
  ∀ (x y : Nibble) (s : State),
    (Instr.ldReg x y).HasWord 0x8000 0xF00F ∧ (Instr.or x y).HasWord 0x8001 0xF00F ∧
    (Instr.and x y).HasWord 0x8002 0xF00F ∧ (Instr.xor x y).HasWord 0x8003 0xF00F ∧
    (∃ t, exec (.ldReg x y) s = .next t ∧
      t.reg x = s.reg y ∧ RegsUnchangedBut [x] s t ∧ Unchanged [.regs] s t) ∧
    (∃ t, exec (.or x y) s = .next t ∧
      t.reg x = s.reg x ||| s.reg y ∧ RegsUnchangedBut [x] s t ∧ Unchanged [.regs] s t) ∧
    (∃ t, exec (.and x y) s = .next t ∧
      t.reg x = s.reg x &&& s.reg y ∧ RegsUnchangedBut [x] s t ∧ Unchanged [.regs] s t) ∧
    (∃ t, exec (.xor x y) s = .next t ∧
      t.reg x = s.reg x ^^^ s.reg y ∧ RegsUnchangedBut [x] s t ∧ Unchanged [.regs] s t)

/-- 8xy4: VF is the carry, from the operands before the instruction, and stays when x = 0xF (R128). -/
def Obligations.AddWithCarry : Prop :=
  ∀ (x y : Nibble) (s : State),
    (Instr.addReg x y).HasWord 0x8004 0xF00F ∧
    ∃ t, exec (.addReg x y) s = .next t ∧
      (t.reg vf).toNat = (if (s.reg x).toNat + (s.reg y).toNat > 255 then 1 else 0) ∧
      (x ≠ vf → (t.reg x).toNat = ((s.reg x).toNat + (s.reg y).toNat) % 256) ∧
      RegsUnchangedBut [x, vf] s t ∧ Unchanged [.regs] s t

/-- 8xy5 and 8xy7: VF is 1 when there is no borrow, and stays when x = 0xF (R129, R131). -/
def Obligations.SubtractWithNoBorrowFlag : Prop :=
  ∀ (x y : Nibble) (s : State),
    (Instr.sub x y).HasWord 0x8005 0xF00F ∧ (Instr.subn x y).HasWord 0x8007 0xF00F ∧
    (∃ t, exec (.sub x y) s = .next t ∧
      (t.reg vf).toNat = (if (s.reg x).toNat ≥ (s.reg y).toNat then 1 else 0) ∧
      (x ≠ vf → (t.reg x).toNat = ((s.reg x).toNat + 256 - (s.reg y).toNat) % 256) ∧
      RegsUnchangedBut [x, vf] s t ∧ Unchanged [.regs] s t) ∧
    (∃ t, exec (.subn x y) s = .next t ∧
      (t.reg vf).toNat = (if (s.reg y).toNat ≥ (s.reg x).toNat then 1 else 0) ∧
      (x ≠ vf → (t.reg x).toNat = ((s.reg y).toNat + 256 - (s.reg x).toNat) % 256) ∧
      RegsUnchangedBut [x, vf] s t ∧ Unchanged [.regs] s t)

/-- 8xy6 and 8xyE under both values of QUIRK_SHIFT_SRC: the operand `v` is V[y] under VY and V[x] under VX; VF is the
bit shifted out and stays when x = 0xF (R130, R132). -/
def Obligations.ShiftByOne : Prop :=
  ∀ (x y : Nibble) (s : State) (v : Byte),
    (s.cfg.shiftSrc = .vy → v = s.reg y) → (s.cfg.shiftSrc = .vx → v = s.reg x) →
    (Instr.shr x y).HasWord 0x8006 0xF00F ∧ (Instr.shl x y).HasWord 0x800E 0xF00F ∧
    (∃ t, exec (.shr x y) s = .next t ∧
      (t.reg vf).toNat = v.toNat % 2 ∧ (x ≠ vf → (t.reg x).toNat = v.toNat / 2) ∧
      RegsUnchangedBut [x, vf] s t ∧ Unchanged [.regs] s t) ∧
    (∃ t, exec (.shl x y) s = .next t ∧
      (t.reg vf).toNat = v.toNat / 128 ∧ (x ≠ vf → (t.reg x).toNat = (v.toNat * 2) % 256) ∧
      RegsUnchangedBut [x, vf] s t ∧ Unchanged [.regs] s t)

/-- Cxkk: V[x] is the step's drawn byte under the mask kk, and one draw is counted (R142, R14). That the draw is
`Config.rnd8` of the counter is the model's form of a free value (log 3). -/
def Obligations.RandomByteIsMasked : Prop :=
  ∀ (x : Nibble) (kk : Byte) (s : State),
    (Instr.rnd x kk).HasWord 0xC000 0xF000 ∧
    ∃ t, exec (.rnd x kk) s = .next t ∧
      t.reg x = Config.rnd8 s.draws &&& kk ∧ RegsUnchangedBut [x] s t ∧ t.draws = s.draws + 1 ∧
      Unchanged [.regs, .draws] s t

/-! ## Index register, font, BCD and block transfer (spec/43_index_memory_bcd.md) -/

/-- Annn and Fx29 (R150, R152). -/
def Obligations.LoadIndexAndFontAddress : Prop :=
  ∀ (nnn : Addr) (x : Nibble) (s : State),
    (Instr.ldI nnn).HasWord 0xA000 0xF000 ∧ (Instr.ldFVx x).HasWord 0xF029 0xF0FF ∧
    (∃ t, exec (.ldI nnn) s = .next t ∧ t.i = nnn ∧ Unchanged [.index] s t) ∧
    (∃ t, exec (.ldFVx x) s = .next t ∧
      t.i.toNat = (s.cfg.fontBase.toNat + (s.reg x).toNat % 16 * 5) % 4096 ∧ Unchanged [.index] s t)

/-- Fx1E: I wraps mod 4096, VF is 1 when the sum passes 0xFFF (R151). -/
def Obligations.AddToIndexSetsOverflow : Prop :=
  ∀ (x : Nibble) (s : State),
    (Instr.addIVx x).HasWord 0xF01E 0xF0FF ∧
    ∃ t, exec (.addIVx x) s = .next t ∧
      t.i.toNat = (s.i.toNat + (s.reg x).toNat) % 4096 ∧
      (t.reg vf).toNat = (if s.i.toNat + (s.reg x).toNat > 0xFFF then 1 else 0) ∧
      RegsUnchangedBut [vf] s t ∧ Unchanged [.index, .regs] s t

/-- Fx33: the hundreds, tens and units digits at I, I + 1, I + 2 mod 4096, every other byte unchanged (R155, R156). -/
def Obligations.BcdStoresThreeDigits : Prop :=
  ∀ (x : Nibble) (s : State), s.Inv →
    (Instr.ldBVx x).HasWord 0xF033 0xF0FF ∧
    ∃ t, exec (.ldBVx x) s = .next t ∧
      (t.memRead (s.i.toNat % 4096)).toNat = (s.reg x).toNat / 100 ∧
      (t.memRead ((s.i.toNat + 1) % 4096)).toNat = (s.reg x).toNat / 10 % 10 ∧
      (t.memRead ((s.i.toNat + 2) % 4096)).toNat = (s.reg x).toNat % 10 ∧
      BytesUnchangedOutside s.i.toNat 3 s t ∧ Unchanged [.memory] s t

/-- Fx55 and Fx65: V0 to Vx go to and come from I .. I + x mod 4096, and I is unchanged or advanced by x + 1 (R157,
R158, R159). -/
def Obligations.BlockStoreAndBlockLoad : Prop :=
  ∀ (x : Nibble) (s : State), s.Inv →
    (Instr.ldMemVx x).HasWord 0xF055 0xF0FF ∧ (Instr.ldVxMem x).HasWord 0xF065 0xF0FF ∧
    (∃ t, exec (.ldMemVx x) s = .next t ∧
      (∀ r : Nibble, r ≤ x → t.memRead ((s.i.toNat + r.val) % 4096) = s.reg r) ∧
      BytesUnchangedOutside s.i.toNat (x.val + 1) s t ∧
      (s.cfg.lsAdvance = .unchanged → t.i = s.i) ∧
      (s.cfg.lsAdvance = .advance → t.i.toNat = (s.i.toNat + x.val + 1) % 4096) ∧
      Unchanged [.memory, .index] s t) ∧
    (∃ t, exec (.ldVxMem x) s = .next t ∧
      (∀ r : Nibble, r ≤ x → t.reg r = s.memRead ((s.i.toNat + r.val) % 4096)) ∧
      (∀ r : Nibble, ¬ r ≤ x → t.reg r = s.reg r) ∧
      (s.cfg.lsAdvance = .unchanged → t.i = s.i) ∧
      (s.cfg.lsAdvance = .advance → t.i.toNat = (s.i.toNat + x.val + 1) % 4096) ∧
      Unchanged [.regs, .index] s t)

/-- Fx55, then Fx65 with the same x from any state with the same I and the memory the store left, gives back V[0..x]
(R160). -/
def Obligations.BlockTransferRoundTrip : Prop :=
  ∀ (x : Nibble) (s : State), s.Inv →
    ∃ t, exec (.ldMemVx x) s = .next t ∧
      ∀ w : State, w.i = s.i → (∀ a, w.memRead a = t.memRead a) →
        ∃ u, exec (.ldVxMem x) w = .next u ∧ ∀ r : Nibble, r ≤ x → u.reg r = s.reg r

/-! ## Display (spec/44_display.md) -/

/-- 00E0: all 2048 pixels 0, nothing else (R170). -/
def Obligations.ClearTurnsEveryPixelOff : Prop :=
  ∀ s : State,
    Instr.cls.HasWord 0x00E0 0xFFFF ∧
    ∃ t, exec .cls s = .next t ∧ (∀ r c, t.display.pixel r c = false) ∧ Unchanged [.display] s t

/-- Dxyn: exactly the pixels that a set sprite bit lands on, each wrapped on its own, are toggled; VF is 1 when one
of them was 1, else 0; nothing else changes (R172, R173, R174, R175). -/
def Obligations.DrawXorsTheSprite : Prop :=
  ∀ (x y n : Nibble) (s : State),
    (Instr.drw x y n).HasWord 0xD000 0xF000 ∧
    ∃ t, exec (.drw x y n) s = .next t ∧
      (∀ r c, (SpriteCovers (fun k => s.memRead ((s.i.toNat + k) % 4096)) (s.reg x) (s.reg y) n.val r c →
          t.display.pixel r c = !s.display.pixel r c) ∧
        (¬SpriteCovers (fun k => s.memRead ((s.i.toNat + k) % 4096)) (s.reg x) (s.reg y) n.val r c →
          t.display.pixel r c = s.display.pixel r c)) ∧
      ((∃ r c, s.display.pixel r c = true ∧ t.display.pixel r c = false) → t.reg vf = 1) ∧
      ((¬∃ r c, s.display.pixel r c = true ∧ t.display.pixel r c = false) → t.reg vf = 0) ∧
      RegsUnchangedBut [vf] s t ∧ Unchanged [.display, .regs] s t

/-- Dxy0: the display is unchanged and VF is 0 (R177). -/
def Obligations.DrawOfNoRowsClearsVf : Prop :=
  ∀ (x y : Nibble) (s : State), ∃ t, exec (.drw x y 0) s = .next t ∧ t.reg vf = 0 ∧ RegsUnchangedBut [vf] s t ∧
    Unchanged [.regs] s t

/-- The bits of a sprite land on distinct pixels, so the order in which they are visited does not change D or VF
(R176). -/
def Obligations.SpriteBitOrderDoesNotMatter : Prop :=
  ∀ (sprite : Nat → Byte) (cx cy : Byte) (n : Nibble) (p : Blit),
    (∀ r₁ c₁ r₂ c₂, r₁ < n.val → r₂ < n.val → c₁ < 8 → c₂ < 8 →
      pixelRow cy r₁ = pixelRow cy r₂ → pixelCol cx c₁ = pixelCol cx c₂ → r₁ = r₂ ∧ c₁ = c₂) ∧
    ∀ order : List (Nat × Nat), order.Perm (spriteBits n.val) →
      order.foldl (fun q b => blitPixel cx cy (sprite b.1) b.1 b.2 q) p = blitRows sprite cx cy n.val p

/-- Drawing the same sprite at the same place twice restores the display (R178), and the second draw collides exactly
when the first one turned a pixel on: a set sprite bit lands on a pixel that was 0 before both draws (R173, R174). The
condition on VF is the one R173 gives; R178's own sentence is `SecondDrawCollidesForEverySetBit` (log 17). -/
def Obligations.DrawTwiceRestoresTheDisplay : Prop :=
  ∀ (x y n : Nibble) (s : State),
    ∃ t, exec (.drw x y n) s = .next t ∧
      (t.reg x = s.reg x → t.reg y = s.reg y →
        ∃ u, exec (.drw x y n) t = .next u ∧ (∀ r c, u.display.pixel r c = s.display.pixel r c) ∧
          ((∃ r c, SpriteCovers (fun k => s.memRead ((s.i.toNat + k) % 4096)) (s.reg x) (s.reg y) n.val r c ∧
              s.display.pixel r c = false) → u.reg vf = 1) ∧
          ((¬∃ r c, SpriteCovers (fun k => s.memRead ((s.i.toNat + k) % 4096)) (s.reg x) (s.reg y) n.val r c ∧
              s.display.pixel r c = false) → u.reg vf = 0))

/-- R178 as it stands, for every display before the first draw: the second draw restores the display and sets VF
exactly when the sprite has a set bit. EXPECTED TO FAIL: where every pixel the sprite covers is 1 before, the first draw
turns them off and the second turns them on, so R173 and R174 give VF = 0. The model follows R173 (log 17). -/
def Obligations.SecondDrawCollidesForEverySetBit : Prop :=
  ∀ (x y n : Nibble) (s : State),
    ∃ t, exec (.drw x y n) s = .next t ∧
      (t.reg x = s.reg x → t.reg y = s.reg y →
        ∃ u, exec (.drw x y n) t = .next u ∧ (∀ r c, u.display.pixel r c = s.display.pixel r c) ∧
          ((∃ k, k < n.val ∧ s.memRead ((s.i.toNat + k) % 4096) ≠ 0) → u.reg vf = 1) ∧
          ((∀ k, k < n.val → s.memRead ((s.i.toNat + k) % 4096) = 0) → u.reg vf = 0))

/-- The packed blitter of R179 gives exactly the display and the collision flag of the blitter of R173. -/
def Obligations.PackedBlitterAgrees : Prop :=
  ∀ (sprite : Nat → Byte) (cx cy : Byte) (n : Nibble) (p : PackedBlit) (q : Blit),
    Shows p.bytes q.display → p.hit = q.hit →
      Shows (packedBlitRows sprite cx cy n.val p).bytes (blitRows sprite cx cy n.val q).display ∧
      (packedBlitRows sprite cx cy n.val p).hit = (blitRows sprite cx cy n.val q).hit

/-! ## Timers and keypad (spec/45_timers_keypad.md) -/

/-- Fx07, Fx15 and Fx18 (R190, R191, R192). -/
def Obligations.TimerReadsAndWrites : Prop :=
  ∀ (x : Nibble) (s : State),
    (Instr.ldVxDt x).HasWord 0xF007 0xF0FF ∧ (Instr.ldDtVx x).HasWord 0xF015 0xF0FF ∧
    (Instr.ldStVx x).HasWord 0xF018 0xF0FF ∧
    (∃ t, exec (.ldVxDt x) s = .next t ∧ t.reg x = s.dt ∧ RegsUnchangedBut [x] s t ∧ Unchanged [.regs] s t) ∧
    (∃ t, exec (.ldDtVx x) s = .next t ∧ t.dt = s.reg x ∧ Unchanged [.delay] s t) ∧
    (∃ t, exec (.ldStVx x) s = .next t ∧ t.st = s.reg x ∧ (t.soundOut = true ↔ s.reg x ≠ 0) ∧ Unchanged [.sound] s t)

/-- Ex9E and ExA1: the key is K[V[x]] for V[x] ≤ 15, K of the low nibble under MASK, else the step's drawn bit, which
is counted (R193, R194, R195). That the draw is `Config.keybit` of the counter is the model's form of a free value
(log 3). -/
def Obligations.KeySkipsFollowTheKey : Prop :=
  ∀ (x : Nibble) (s : State) (p : Bool),
    (∀ h : (s.reg x).toNat < 16, p = s.keys.get ⟨(s.reg x).toNat, h⟩) →
    ((s.reg x).toNat ≥ 16 → s.cfg.keyOor = .mask →
      p = s.keys.get ⟨(s.reg x).toNat % 16, Nat.mod_lt _ (by decide)⟩) →
    ((s.reg x).toNat ≥ 16 → s.cfg.keyOor = .draw → p = Config.keybit s.draws) →
    (Instr.skp x).HasWord 0xE09E 0xF0FF ∧ (Instr.sknp x).HasWord 0xE0A1 0xF0FF ∧
    (∃ t, exec (.skp x) s = .next t ∧
      t.pc.toNat = (if p = true then (s.pc.toNat + 2) % 4096 else s.pc.toNat) ∧
      t.draws = (if (s.reg x).toNat ≥ 16 ∧ s.cfg.keyOor = .draw then s.draws + 1 else s.draws) ∧
      Unchanged [.pc, .draws] s t) ∧
    (∃ t, exec (.sknp x) s = .next t ∧
      t.pc.toNat = (if p = false then (s.pc.toNat + 2) % 4096 else s.pc.toNat) ∧
      t.draws = (if (s.reg x).toNat ≥ 16 ∧ s.cfg.keyOor = .draw then s.draws + 1 else s.draws) ∧
      Unchanged [.pc, .draws] s t)

/-- Fx0A: W is x whatever keys are down, pc stays at the advanced pc, no Step runs; Tick and KeyUp do not end the wait
and timers count down in it; a KeyDown writes the code to V[x], ends the wait and presses the key (R196). -/
def Obligations.KeyWaitStoresTheNextKey : Prop :=
  ∀ (x : Nibble) (s : State),
    (Instr.ldVxK x).HasWord 0xF00A 0xF0FF ∧
    ∃ t, exec (.ldVxK x) s = .next t ∧ t.waiting = some x ∧ Unchanged [.waiting] s t ∧
      (∀ u, step t ≠ .next u) ∧
      t.tick.waiting = some x ∧ t.tick.dt.toNat = s.dt.toNat - 1 ∧ t.tick.st.toNat = s.st.toNat - 1 ∧
      (∀ k, (t.keyUp k).waiting = some x) ∧
      ∀ k : Nibble, ((t.keyDown k).reg x).toNat = k.val ∧ (t.keyDown k).waiting = none ∧
        (t.keyDown k).keys.get k = true ∧ (t.keyDown k).pc = s.pc

/-! ## Host operations (spec/60_exceptions.md) -/

/-- Tick: each timer that is nonzero goes down by 1, a timer at 0 stays, nothing else changes (R220). -/
def Obligations.TickCountsTimersDown : Prop :=
  ∀ s : State, ∃ t, HostOp.tick.apply s = .next t ∧
    t.dt.toNat = s.dt.toNat - 1 ∧ t.st.toNat = s.st.toNat - 1 ∧ Unchanged [.delay, .sound] s t

/-- KeyDown and KeyUp (R222, R223). -/
def Obligations.KeyDownAndKeyUp : Prop :=
  ∀ (k : Nibble) (s : State),
    (∃ t, (HostOp.keyDown k).apply s = .next t ∧
      (∀ j, t.keys.get j = (if j = k then true else s.keys.get j)) ∧ t.waiting = none ∧
      (∀ x, s.waiting = some x → (t.reg x).toNat = k.val ∧ RegsUnchangedBut [x] s t) ∧
      (s.waiting = none → ∀ x, t.reg x = s.reg x) ∧
      Unchanged [.keys, .waiting, .regs] s t) ∧
    (∃ t, (HostOp.keyUp k).apply s = .next t ∧
      (∀ j, t.keys.get j = (if j = k then false else s.keys.get j)) ∧ Unchanged [.keys] s t)

/-- The sound output is on exactly while ST is nonzero (R224). -/
def Obligations.SoundOutputIsStNonzero : Prop :=
  ∀ s : State, s.soundOut = true ↔ s.st.toNat > 0

/-- A schedule with no KeyDown and no Reset does not end a key wait, and no Step in it runs (R197). -/
def Obligations.OnlyKeyDownEndsTheWait : Prop :=
  ∀ (ops : List HostOp) (s : State) (x : Nibble), s.waiting = some x →
    (∀ k, HostOp.keyDown k ∉ ops) → (∀ cfg rom, HostOp.reset cfg rom ∉ ops) →
    (HostOp.step ∈ ops → ∀ t, HostOp.run ops s ≠ .next t) ∧
    (HostOp.step ∉ ops → ∃ t, HostOp.run ops s = .next t ∧ t.waiting = some x ∧
      Unchanged [.delay, .sound, .keys] s t)

/-! ## Reset and memory (spec/70_reset_and_hazards.md, spec/20_memory.md) -/

/-- Reset(rom): no state exactly when the ROM is too long; else every element has its reset value, and memory holds the
ROM, then the font where the ROM is not, then 0 under MEM_INIT = ZERO and any value under DRAW (R36, R240, R243, R244,
R245). -/
def Obligations.ResetSetsEveryElement : Prop :=
  ∀ (cfg : Params) (rom : List Byte),
    (rom.length > 4096 - cfg.loadAddr.toNat → ∀ t, State.resetWith cfg rom ≠ .next t) ∧
    (rom.length ≤ 4096 - cfg.loadAddr.toNat → ∃ t, State.resetWith cfg rom = .next t ∧
      t.cfg = cfg ∧ (∀ x, t.reg x = 0) ∧ t.i = 0 ∧ t.sp = 0 ∧ t.stack.length = cfg.stackDepth ∧
      (∀ j, t.slot j = 0) ∧ t.dt = 0 ∧ t.st = 0 ∧ (∀ k, t.keys.get k = false) ∧ t.waiting = none ∧
      (∀ r c, t.display.pixel r c = false) ∧ t.pc = cfg.loadAddr ∧
      (∀ (j : Nat) (h : j < rom.length), t.memRead (cfg.loadAddr.toNat + j) = rom[j]) ∧
      (∀ a, a < 4096 → (∀ j, j < rom.length → a ≠ cfg.loadAddr.toNat + j) →
        (∀ (k : Nat) (h : k < 80), a = (cfg.fontBase.toNat + k) % 4096 → t.memRead a = cfg.fontData[k]) ∧
        ((∀ k, k < 80 → a ≠ (cfg.fontBase.toNat + k) % 4096) → cfg.memInit = .zero → t.memRead a = 0)))

/-- The model's reset state is Reset of the empty ROM with the defaults of R5: the font at 0x000 .. 0x04F, zero
elsewhere, pc = 0x200 (R36, R5). -/
def Obligations.ResetStateIsTheEmptyLoad : Prop :=
  HostOp.apply (.reset Params.default []) State.reset = .next State.reset ∧ State.reset.pc = 0x200 ∧
    State.reset.cfg.stackDepth = 16 ∧
    (∀ k : Fin 80, State.reset.memRead k.val = defaultFont.get k) ∧
    ∀ a, 80 ≤ a → a < 4096 → State.reset.memRead a = 0

/-- A byte that Fx55 or Fx33 stores at pc or pc + 1 is the byte the next fetch reads there (R63, R252). -/
def Obligations.StoresAreSeenByTheNextFetch : Prop :=
  ∀ (x : Nibble) (s : State), s.Inv →
    (∃ t, exec (.ldMemVx x) s = .next t ∧ ∀ k : Nibble, k ≤ x →
      (t.pc.toNat = (s.i.toNat + k.val) % 4096 → t.fetch.toNat / 256 = (s.reg k).toNat) ∧
      ((t.pc.toNat + 1) % 4096 = (s.i.toNat + k.val) % 4096 → t.fetch.toNat % 256 = (s.reg k).toNat)) ∧
    (∃ t, exec (.ldBVx x) s = .next t ∧ ∀ k : Fin 3,
      (t.pc.toNat = (s.i.toNat + k.val) % 4096 → t.fetch.toNat / 256 = (s.reg x).toNat / 10 ^ (2 - k.val) % 10) ∧
      ((t.pc.toNat + 1) % 4096 = (s.i.toNat + k.val) % 4096 →
        t.fetch.toNat % 256 = (s.reg x).toNat / 10 ^ (2 - k.val) % 10))

/-- Two memories in canonical form that read the same at every address are the same data; the model's own form of
memory (log 8). -/
def Obligations.CanonicalMemoryIsUnique : Prop :=
  ∀ (cfg : Params) (m₁ m₂ : Memory), m₁.wf cfg = true → m₂.wf cfg = true →
    (∀ a, a < 4096 → Memory.read cfg m₁ a = Memory.read cfg m₂ a) → m₁ = m₂
end

