-- ==== Sys2Proof/Laws/Decode.lean ====
section
/-! SUPPORT. The fields of a word laid out by the encoder, and its bits under the masks of R75. -/
namespace Sys2Proof

/-! ## Fields of the layouts (R71, R72) -/

theorem extract_high {m n : Nat} (a : BitVec m) (b : BitVec n) : (a ++ b).extractLsb' n m = a := by
  ext k hk
  simp only [BitVec.getElem_extractLsb', BitVec.getLsbD_append]
  simp [hk]

theorem extract_low {m n : Nat} (a : BitVec m) (b : BitVec n) : (a ++ b).extractLsb' 0 n = b := by
  ext k hk
  simp only [BitVec.getElem_extractLsb', BitVec.getLsbD_append]
  simp [hk]

/-- A field above position `n` of `a ++ b` is a field of `a`. -/
theorem extract_above {m n : Nat} (a : BitVec m) (b : BitVec n) (p w : Nat) :
    (a ++ b).extractLsb' (n + p) w = a.extractLsb' p w := by
  ext k hk
  simp only [BitVec.getElem_extractLsb', BitVec.getLsbD_append]
  have h : ¬ n + p + k < n := by omega
  simp only [h, if_false]
  congr 1
  omega

section
variable (u : BitVec 4) (nnn : Addr) (x y n : Nibble) (kk : Byte)

@[simp] theorem layoutAddr_u : (layoutAddr u nnn).u = u := extract_high u nnn
@[simp] theorem layoutAddr_nnn : (layoutAddr u nnn).nnn = nnn := extract_low u nnn

@[simp] theorem layoutRegByte_u : (layoutRegByte u x kk).u = u :=
  (extract_above (u ++ (BitVec.ofFin x : BitVec 4)) kk 4 4).trans (extract_high _ _)
@[simp] theorem layoutRegByte_x : (layoutRegByte u x kk).x = x := by
  have h : (layoutRegByte u x kk).extractLsb' 8 4 = (BitVec.ofFin x : BitVec 4) :=
    (extract_above (u ++ (BitVec.ofFin x : BitVec 4)) kk 0 4).trans (extract_low _ _)
  unfold Opcode.x
  rw [h]
@[simp] theorem layoutRegByte_kk : (layoutRegByte u x kk).kk = kk := extract_low _ _

@[simp] theorem layoutRegReg_u : (layoutRegReg u x y n).u = u :=
  (extract_above (u ++ (BitVec.ofFin x : BitVec 4) ++ (BitVec.ofFin y : BitVec 4)) (BitVec.ofFin n : BitVec 4) 8 4).trans
    ((extract_above (u ++ (BitVec.ofFin x : BitVec 4)) (BitVec.ofFin y : BitVec 4) 4 4).trans (extract_high _ _))
@[simp] theorem layoutRegReg_x : (layoutRegReg u x y n).x = x := by
  have h : (layoutRegReg u x y n).extractLsb' 8 4 = (BitVec.ofFin x : BitVec 4) :=
    (extract_above (u ++ (BitVec.ofFin x : BitVec 4) ++ (BitVec.ofFin y : BitVec 4)) (BitVec.ofFin n : BitVec 4) 4 4).trans
      ((extract_above (u ++ (BitVec.ofFin x : BitVec 4)) (BitVec.ofFin y : BitVec 4) 0 4).trans (extract_low _ _))
  unfold Opcode.x
  rw [h]
@[simp] theorem layoutRegReg_y : (layoutRegReg u x y n).y = y := by
  have h : (layoutRegReg u x y n).extractLsb' 4 4 = (BitVec.ofFin y : BitVec 4) :=
    (extract_above (u ++ (BitVec.ofFin x : BitVec 4) ++ (BitVec.ofFin y : BitVec 4)) (BitVec.ofFin n : BitVec 4) 0 4).trans
      (extract_low _ _)
  unfold Opcode.y
  rw [h]
@[simp] theorem layoutRegReg_n : (layoutRegReg u x y n).n = n := by
  have h : (layoutRegReg u x y n).extractLsb' 0 4 = (BitVec.ofFin n : BitVec 4) := extract_low _ _
  unfold Opcode.n
  rw [h]

/-! ## Bits under the masks (R75) -/

theorem layoutAddr_group : layoutAddr u nnn &&& 0xF000 = u ++ 0#12 := by
  rw [layoutAddr, show (0xF000 : Opcode) = 0xF#4 ++ 0x000#12 by decide, BitVec.and_append]
  simp only [show (0xF#4) = BitVec.allOnes 4 by decide, BitVec.and_allOnes, BitVec.and_zero]

theorem layoutRegByte_group : layoutRegByte u x kk &&& 0xF000 = u ++ 0#4 ++ 0#8 := by
  rw [layoutRegByte, show (0xF000 : Opcode) = (0xF#4 ++ 0x0#4) ++ 0x00#8 by decide, BitVec.and_append, BitVec.and_append]
  simp only [show (0xF#4) = BitVec.allOnes 4 by decide, BitVec.and_allOnes, BitVec.and_zero]

theorem layoutRegByte_subop : layoutRegByte u x kk &&& 0xF0FF = u ++ 0#4 ++ kk := by
  rw [layoutRegByte, show (0xF0FF : Opcode) = (0xF#4 ++ 0x0#4) ++ 0xFF#8 by decide, BitVec.and_append, BitVec.and_append]
  simp only [show (0xF#4) = BitVec.allOnes 4 by decide, show (0xFF#8) = BitVec.allOnes 8 by decide,
    BitVec.and_allOnes, BitVec.and_zero]

theorem layoutRegReg_selector : layoutRegReg u x y n &&& 0xF00F = u ++ 0#4 ++ 0#4 ++ (BitVec.ofFin n : BitVec 4) := by
  rw [layoutRegReg, show (0xF00F : Opcode) = ((0xF#4 ++ 0x0#4) ++ 0x0#4) ++ 0xF#4 by decide, BitVec.and_append,
    BitVec.and_append, BitVec.and_append]
  simp only [show (0xF#4) = BitVec.allOnes 4 by decide, BitVec.and_allOnes, BitVec.and_zero]

theorem layoutRegReg_group : layoutRegReg u x y n &&& 0xF000 = u ++ 0#4 ++ 0#4 ++ 0#4 := by
  rw [layoutRegReg, show (0xF000 : Opcode) = ((0xF#4 ++ 0x0#4) ++ 0x0#4) ++ 0x0#4 by decide, BitVec.and_append,
    BitVec.and_append, BitVec.and_append]
  simp only [show (0xF#4) = BitVec.allOnes 4 by decide, BitVec.and_allOnes, BitVec.and_zero]

end

/-- An opcode is its two bytes, high byte first (R52). -/
theorem opcodeOfBytes_split (o : Opcode) : opcodeOfBytes (o.extractLsb' 8 8) (o.extractLsb' 0 8) = o := by
  unfold opcodeOfBytes
  apply BitVec.eq_of_getLsbD_eq
  intro k hk
  simp only [BitVec.getLsbD_append, BitVec.getLsbD_extractLsb']
  by_cases h : k < 8
  · simp [h]
  · have h2 : k - 8 < 8 := by omega
    simp only [h, if_false, h2, decide_true, Bool.true_and]
    congr 1
    omega

/-- A word is its fields u, x, y, n (R71, R72). -/
theorem eq_layoutRegReg (o : Opcode) : o = layoutRegReg o.u o.x o.y o.n := by
  unfold layoutRegReg Opcode.u Opcode.x Opcode.y Opcode.n
  apply BitVec.eq_of_getLsbD_eq
  intro k hk
  simp only [BitVec.getLsbD_append, BitVec.getLsbD_extractLsb']
  show _ = if k < 4 then (BitVec.extractLsb' 0 4 o).getLsbD k
    else if k - 4 < 4 then (BitVec.extractLsb' 4 4 o).getLsbD (k - 4)
    else if k - 4 - 4 < 4 then (BitVec.extractLsb' 8 4 o).getLsbD (k - 4 - 4) else _
  simp only [BitVec.getLsbD_extractLsb']
  have : k < 4 + 4 + 4 + 4 := hk
  split_ifs <;> (try have d : k - 4 - 4 - 4 < 4 := by omega) <;>
    simp only [*, decide_true, Bool.true_and] <;> congr 1 <;> omega

/-- A word is its fields u, x, kk (R71, R72). -/
theorem eq_layoutRegByte (o : Opcode) : o = layoutRegByte o.u o.x o.kk := by
  unfold layoutRegByte Opcode.u Opcode.x Opcode.kk
  apply BitVec.eq_of_getLsbD_eq
  intro k hk
  simp only [BitVec.getLsbD_append, BitVec.getLsbD_extractLsb']
  show _ = if k < 8 then _ else if k - 8 < 4 then (BitVec.extractLsb' 8 4 o).getLsbD (k - 8) else _
  simp only [BitVec.getLsbD_extractLsb']
  have : k < 16 := hk
  split_ifs <;> (try have d : k - 8 - 4 < 4 := by omega) <;>
    simp only [*, decide_true, Bool.true_and] <;> congr 1 <;> omega

/-- A word is its fields u, nnn (R71, R72). -/
theorem eq_layoutAddr (o : Opcode) : o = layoutAddr o.u o.nnn := by
  unfold layoutAddr Opcode.u Opcode.nnn
  apply BitVec.eq_of_getLsbD_eq
  intro k hk
  simp only [BitVec.getLsbD_append, BitVec.getLsbD_extractLsb']
  split_ifs <;> (try have d : k - 12 < 4 := by omega) <;>
    simp only [*, decide_true, Bool.true_and] <;> congr 1 <;> omega

end Sys2Proof
end

