-- ==== Sys2Proof/Laws/State.lean ====
section
/-! SUPPORT. One lemma per field per update: what each named operation leaves in each field, so that no later proof
unfolds a record update. -/
namespace Sys2Proof.Machine

variable (s : State)

/-! ## setReg -/

@[simp] theorem State.setReg_cfg (x : Nibble) (b : Byte) : (s.setReg x b).cfg = s.cfg := rfl
@[simp] theorem State.setReg_v (x : Nibble) (b : Byte) : (s.setReg x b).v = s.v.set x b := rfl
@[simp] theorem State.setReg_i (x : Nibble) (b : Byte) : (s.setReg x b).i = s.i := rfl
@[simp] theorem State.setReg_pc (x : Nibble) (b : Byte) : (s.setReg x b).pc = s.pc := rfl
@[simp] theorem State.setReg_stack (x : Nibble) (b : Byte) : (s.setReg x b).stack = s.stack := rfl
@[simp] theorem State.setReg_sp (x : Nibble) (b : Byte) : (s.setReg x b).sp = s.sp := rfl
@[simp] theorem State.setReg_dt (x : Nibble) (b : Byte) : (s.setReg x b).dt = s.dt := rfl
@[simp] theorem State.setReg_st (x : Nibble) (b : Byte) : (s.setReg x b).st = s.st := rfl
@[simp] theorem State.setReg_keys (x : Nibble) (b : Byte) : (s.setReg x b).keys = s.keys := rfl
@[simp] theorem State.setReg_waiting (x : Nibble) (b : Byte) : (s.setReg x b).waiting = s.waiting := rfl
@[simp] theorem State.setReg_display (x : Nibble) (b : Byte) : (s.setReg x b).display = s.display := rfl
@[simp] theorem State.setReg_mem (x : Nibble) (b : Byte) : (s.setReg x b).mem = s.mem := rfl
@[simp] theorem State.setReg_draws (x : Nibble) (b : Byte) : (s.setReg x b).draws = s.draws := rfl
@[simp] theorem State.memRead_setReg (x : Nibble) (b : Byte) (m : Nat) : (s.setReg x b).memRead m = s.memRead m := rfl
@[simp] theorem State.slot_setReg (x : Nibble) (b : Byte) (j : Nat) : (s.setReg x b).slot j = s.slot j := rfl

/-! ## setFlag -/

@[simp] theorem State.setFlag_cfg (c : Bool) : (s.setFlag c).cfg = s.cfg := rfl
@[simp] theorem State.setFlag_v (c : Bool) : (s.setFlag c).v = s.v.set vf (flagByte c) := rfl
@[simp] theorem State.setFlag_i (c : Bool) : (s.setFlag c).i = s.i := rfl
@[simp] theorem State.setFlag_pc (c : Bool) : (s.setFlag c).pc = s.pc := rfl
@[simp] theorem State.setFlag_stack (c : Bool) : (s.setFlag c).stack = s.stack := rfl
@[simp] theorem State.setFlag_sp (c : Bool) : (s.setFlag c).sp = s.sp := rfl
@[simp] theorem State.setFlag_dt (c : Bool) : (s.setFlag c).dt = s.dt := rfl
@[simp] theorem State.setFlag_st (c : Bool) : (s.setFlag c).st = s.st := rfl
@[simp] theorem State.setFlag_keys (c : Bool) : (s.setFlag c).keys = s.keys := rfl
@[simp] theorem State.setFlag_waiting (c : Bool) : (s.setFlag c).waiting = s.waiting := rfl
@[simp] theorem State.setFlag_display (c : Bool) : (s.setFlag c).display = s.display := rfl
@[simp] theorem State.setFlag_mem (c : Bool) : (s.setFlag c).mem = s.mem := rfl
@[simp] theorem State.setFlag_draws (c : Bool) : (s.setFlag c).draws = s.draws := rfl
@[simp] theorem State.memRead_setFlag (c : Bool) (m : Nat) : (s.setFlag c).memRead m = s.memRead m := rfl
@[simp] theorem State.slot_setFlag (c : Bool) (j : Nat) : (s.setFlag c).slot j = s.slot j := rfl

/-! ## setRegFlag -/

@[simp] theorem State.setRegFlag_cfg (x : Nibble) (b : Byte) (c : Bool) : (s.setRegFlag x b c).cfg = s.cfg := rfl
@[simp] theorem State.setRegFlag_v (x : Nibble) (b : Byte) (c : Bool) : (s.setRegFlag x b c).v = (s.v.set x b).set vf (flagByte c) := rfl
@[simp] theorem State.setRegFlag_i (x : Nibble) (b : Byte) (c : Bool) : (s.setRegFlag x b c).i = s.i := rfl
@[simp] theorem State.setRegFlag_pc (x : Nibble) (b : Byte) (c : Bool) : (s.setRegFlag x b c).pc = s.pc := rfl
@[simp] theorem State.setRegFlag_stack (x : Nibble) (b : Byte) (c : Bool) : (s.setRegFlag x b c).stack = s.stack := rfl
@[simp] theorem State.setRegFlag_sp (x : Nibble) (b : Byte) (c : Bool) : (s.setRegFlag x b c).sp = s.sp := rfl
@[simp] theorem State.setRegFlag_dt (x : Nibble) (b : Byte) (c : Bool) : (s.setRegFlag x b c).dt = s.dt := rfl
@[simp] theorem State.setRegFlag_st (x : Nibble) (b : Byte) (c : Bool) : (s.setRegFlag x b c).st = s.st := rfl
@[simp] theorem State.setRegFlag_keys (x : Nibble) (b : Byte) (c : Bool) : (s.setRegFlag x b c).keys = s.keys := rfl
@[simp] theorem State.setRegFlag_waiting (x : Nibble) (b : Byte) (c : Bool) : (s.setRegFlag x b c).waiting = s.waiting := rfl
@[simp] theorem State.setRegFlag_display (x : Nibble) (b : Byte) (c : Bool) : (s.setRegFlag x b c).display = s.display := rfl
@[simp] theorem State.setRegFlag_mem (x : Nibble) (b : Byte) (c : Bool) : (s.setRegFlag x b c).mem = s.mem := rfl
@[simp] theorem State.setRegFlag_draws (x : Nibble) (b : Byte) (c : Bool) : (s.setRegFlag x b c).draws = s.draws := rfl
@[simp] theorem State.memRead_setRegFlag (x : Nibble) (b : Byte) (c : Bool) (m : Nat) : (s.setRegFlag x b c).memRead m = s.memRead m := rfl
@[simp] theorem State.slot_setRegFlag (x : Nibble) (b : Byte) (c : Bool) (j : Nat) : (s.setRegFlag x b c).slot j = s.slot j := rfl

/-! ## setI -/

@[simp] theorem State.setI_cfg (a : Addr) : (s.setI a).cfg = s.cfg := rfl
@[simp] theorem State.setI_v (a : Addr) : (s.setI a).v = s.v := rfl
@[simp] theorem State.setI_i (a : Addr) : (s.setI a).i = a := rfl
@[simp] theorem State.setI_pc (a : Addr) : (s.setI a).pc = s.pc := rfl
@[simp] theorem State.setI_stack (a : Addr) : (s.setI a).stack = s.stack := rfl
@[simp] theorem State.setI_sp (a : Addr) : (s.setI a).sp = s.sp := rfl
@[simp] theorem State.setI_dt (a : Addr) : (s.setI a).dt = s.dt := rfl
@[simp] theorem State.setI_st (a : Addr) : (s.setI a).st = s.st := rfl
@[simp] theorem State.setI_keys (a : Addr) : (s.setI a).keys = s.keys := rfl
@[simp] theorem State.setI_waiting (a : Addr) : (s.setI a).waiting = s.waiting := rfl
@[simp] theorem State.setI_display (a : Addr) : (s.setI a).display = s.display := rfl
@[simp] theorem State.setI_mem (a : Addr) : (s.setI a).mem = s.mem := rfl
@[simp] theorem State.setI_draws (a : Addr) : (s.setI a).draws = s.draws := rfl
@[simp] theorem State.reg_setI (a : Addr) (r : Nibble) : (s.setI a).reg r = s.reg r := rfl
@[simp] theorem State.memRead_setI (a : Addr) (m : Nat) : (s.setI a).memRead m = s.memRead m := rfl
@[simp] theorem State.slot_setI (a : Addr) (j : Nat) : (s.setI a).slot j = s.slot j := rfl

/-! ## setPc -/

@[simp] theorem State.setPc_cfg (a : Addr) : (s.setPc a).cfg = s.cfg := rfl
@[simp] theorem State.setPc_v (a : Addr) : (s.setPc a).v = s.v := rfl
@[simp] theorem State.setPc_i (a : Addr) : (s.setPc a).i = s.i := rfl
@[simp] theorem State.setPc_pc (a : Addr) : (s.setPc a).pc = a := rfl
@[simp] theorem State.setPc_stack (a : Addr) : (s.setPc a).stack = s.stack := rfl
@[simp] theorem State.setPc_sp (a : Addr) : (s.setPc a).sp = s.sp := rfl
@[simp] theorem State.setPc_dt (a : Addr) : (s.setPc a).dt = s.dt := rfl
@[simp] theorem State.setPc_st (a : Addr) : (s.setPc a).st = s.st := rfl
@[simp] theorem State.setPc_keys (a : Addr) : (s.setPc a).keys = s.keys := rfl
@[simp] theorem State.setPc_waiting (a : Addr) : (s.setPc a).waiting = s.waiting := rfl
@[simp] theorem State.setPc_display (a : Addr) : (s.setPc a).display = s.display := rfl
@[simp] theorem State.setPc_mem (a : Addr) : (s.setPc a).mem = s.mem := rfl
@[simp] theorem State.setPc_draws (a : Addr) : (s.setPc a).draws = s.draws := rfl
@[simp] theorem State.reg_setPc (a : Addr) (r : Nibble) : (s.setPc a).reg r = s.reg r := rfl
@[simp] theorem State.memRead_setPc (a : Addr) (m : Nat) : (s.setPc a).memRead m = s.memRead m := rfl
@[simp] theorem State.slot_setPc (a : Addr) (j : Nat) : (s.setPc a).slot j = s.slot j := rfl

/-! ## nextWord -/

@[simp] theorem State.nextWord_cfg : (s.nextWord).cfg = s.cfg := rfl
@[simp] theorem State.nextWord_v : (s.nextWord).v = s.v := rfl
@[simp] theorem State.nextWord_i : (s.nextWord).i = s.i := rfl
@[simp] theorem State.nextWord_pc : (s.nextWord).pc = s.pc + 2 := rfl
@[simp] theorem State.nextWord_stack : (s.nextWord).stack = s.stack := rfl
@[simp] theorem State.nextWord_sp : (s.nextWord).sp = s.sp := rfl
@[simp] theorem State.nextWord_dt : (s.nextWord).dt = s.dt := rfl
@[simp] theorem State.nextWord_st : (s.nextWord).st = s.st := rfl
@[simp] theorem State.nextWord_keys : (s.nextWord).keys = s.keys := rfl
@[simp] theorem State.nextWord_waiting : (s.nextWord).waiting = s.waiting := rfl
@[simp] theorem State.nextWord_display : (s.nextWord).display = s.display := rfl
@[simp] theorem State.nextWord_mem : (s.nextWord).mem = s.mem := rfl
@[simp] theorem State.nextWord_draws : (s.nextWord).draws = s.draws := rfl
@[simp] theorem State.reg_nextWord (r : Nibble) : (s.nextWord).reg r = s.reg r := rfl
@[simp] theorem State.memRead_nextWord (m : Nat) : (s.nextWord).memRead m = s.memRead m := rfl
@[simp] theorem State.slot_nextWord (j : Nat) : (s.nextWord).slot j = s.slot j := rfl

/-! ## setDt -/

@[simp] theorem State.setDt_cfg (b : Byte) : (s.setDt b).cfg = s.cfg := rfl
@[simp] theorem State.setDt_v (b : Byte) : (s.setDt b).v = s.v := rfl
@[simp] theorem State.setDt_i (b : Byte) : (s.setDt b).i = s.i := rfl
@[simp] theorem State.setDt_pc (b : Byte) : (s.setDt b).pc = s.pc := rfl
@[simp] theorem State.setDt_stack (b : Byte) : (s.setDt b).stack = s.stack := rfl
@[simp] theorem State.setDt_sp (b : Byte) : (s.setDt b).sp = s.sp := rfl
@[simp] theorem State.setDt_dt (b : Byte) : (s.setDt b).dt = b := rfl
@[simp] theorem State.setDt_st (b : Byte) : (s.setDt b).st = s.st := rfl
@[simp] theorem State.setDt_keys (b : Byte) : (s.setDt b).keys = s.keys := rfl
@[simp] theorem State.setDt_waiting (b : Byte) : (s.setDt b).waiting = s.waiting := rfl
@[simp] theorem State.setDt_display (b : Byte) : (s.setDt b).display = s.display := rfl
@[simp] theorem State.setDt_mem (b : Byte) : (s.setDt b).mem = s.mem := rfl
@[simp] theorem State.setDt_draws (b : Byte) : (s.setDt b).draws = s.draws := rfl
@[simp] theorem State.reg_setDt (b : Byte) (r : Nibble) : (s.setDt b).reg r = s.reg r := rfl
@[simp] theorem State.memRead_setDt (b : Byte) (m : Nat) : (s.setDt b).memRead m = s.memRead m := rfl
@[simp] theorem State.slot_setDt (b : Byte) (j : Nat) : (s.setDt b).slot j = s.slot j := rfl

/-! ## setSt -/

@[simp] theorem State.setSt_cfg (b : Byte) : (s.setSt b).cfg = s.cfg := rfl
@[simp] theorem State.setSt_v (b : Byte) : (s.setSt b).v = s.v := rfl
@[simp] theorem State.setSt_i (b : Byte) : (s.setSt b).i = s.i := rfl
@[simp] theorem State.setSt_pc (b : Byte) : (s.setSt b).pc = s.pc := rfl
@[simp] theorem State.setSt_stack (b : Byte) : (s.setSt b).stack = s.stack := rfl
@[simp] theorem State.setSt_sp (b : Byte) : (s.setSt b).sp = s.sp := rfl
@[simp] theorem State.setSt_dt (b : Byte) : (s.setSt b).dt = s.dt := rfl
@[simp] theorem State.setSt_st (b : Byte) : (s.setSt b).st = b := rfl
@[simp] theorem State.setSt_keys (b : Byte) : (s.setSt b).keys = s.keys := rfl
@[simp] theorem State.setSt_waiting (b : Byte) : (s.setSt b).waiting = s.waiting := rfl
@[simp] theorem State.setSt_display (b : Byte) : (s.setSt b).display = s.display := rfl
@[simp] theorem State.setSt_mem (b : Byte) : (s.setSt b).mem = s.mem := rfl
@[simp] theorem State.setSt_draws (b : Byte) : (s.setSt b).draws = s.draws := rfl
@[simp] theorem State.reg_setSt (b : Byte) (r : Nibble) : (s.setSt b).reg r = s.reg r := rfl
@[simp] theorem State.memRead_setSt (b : Byte) (m : Nat) : (s.setSt b).memRead m = s.memRead m := rfl
@[simp] theorem State.slot_setSt (b : Byte) (j : Nat) : (s.setSt b).slot j = s.slot j := rfl

/-! ## setKey -/

@[simp] theorem State.setKey_cfg (k : Nibble) (p : Bool) : (s.setKey k p).cfg = s.cfg := rfl
@[simp] theorem State.setKey_v (k : Nibble) (p : Bool) : (s.setKey k p).v = s.v := rfl
@[simp] theorem State.setKey_i (k : Nibble) (p : Bool) : (s.setKey k p).i = s.i := rfl
@[simp] theorem State.setKey_pc (k : Nibble) (p : Bool) : (s.setKey k p).pc = s.pc := rfl
@[simp] theorem State.setKey_stack (k : Nibble) (p : Bool) : (s.setKey k p).stack = s.stack := rfl
@[simp] theorem State.setKey_sp (k : Nibble) (p : Bool) : (s.setKey k p).sp = s.sp := rfl
@[simp] theorem State.setKey_dt (k : Nibble) (p : Bool) : (s.setKey k p).dt = s.dt := rfl
@[simp] theorem State.setKey_st (k : Nibble) (p : Bool) : (s.setKey k p).st = s.st := rfl
@[simp] theorem State.setKey_keys (k : Nibble) (p : Bool) : (s.setKey k p).keys = s.keys.set k p := rfl
@[simp] theorem State.setKey_waiting (k : Nibble) (p : Bool) : (s.setKey k p).waiting = s.waiting := rfl
@[simp] theorem State.setKey_display (k : Nibble) (p : Bool) : (s.setKey k p).display = s.display := rfl
@[simp] theorem State.setKey_mem (k : Nibble) (p : Bool) : (s.setKey k p).mem = s.mem := rfl
@[simp] theorem State.setKey_draws (k : Nibble) (p : Bool) : (s.setKey k p).draws = s.draws := rfl
@[simp] theorem State.reg_setKey (k : Nibble) (p : Bool) (r : Nibble) : (s.setKey k p).reg r = s.reg r := rfl
@[simp] theorem State.memRead_setKey (k : Nibble) (p : Bool) (m : Nat) : (s.setKey k p).memRead m = s.memRead m := rfl
@[simp] theorem State.slot_setKey (k : Nibble) (p : Bool) (j : Nat) : (s.setKey k p).slot j = s.slot j := rfl

/-! ## setWaiting -/

@[simp] theorem State.setWaiting_cfg (w : Option Nibble) : (s.setWaiting w).cfg = s.cfg := rfl
@[simp] theorem State.setWaiting_v (w : Option Nibble) : (s.setWaiting w).v = s.v := rfl
@[simp] theorem State.setWaiting_i (w : Option Nibble) : (s.setWaiting w).i = s.i := rfl
@[simp] theorem State.setWaiting_pc (w : Option Nibble) : (s.setWaiting w).pc = s.pc := rfl
@[simp] theorem State.setWaiting_stack (w : Option Nibble) : (s.setWaiting w).stack = s.stack := rfl
@[simp] theorem State.setWaiting_sp (w : Option Nibble) : (s.setWaiting w).sp = s.sp := rfl
@[simp] theorem State.setWaiting_dt (w : Option Nibble) : (s.setWaiting w).dt = s.dt := rfl
@[simp] theorem State.setWaiting_st (w : Option Nibble) : (s.setWaiting w).st = s.st := rfl
@[simp] theorem State.setWaiting_keys (w : Option Nibble) : (s.setWaiting w).keys = s.keys := rfl
@[simp] theorem State.setWaiting_waiting (w : Option Nibble) : (s.setWaiting w).waiting = w := rfl
@[simp] theorem State.setWaiting_display (w : Option Nibble) : (s.setWaiting w).display = s.display := rfl
@[simp] theorem State.setWaiting_mem (w : Option Nibble) : (s.setWaiting w).mem = s.mem := rfl
@[simp] theorem State.setWaiting_draws (w : Option Nibble) : (s.setWaiting w).draws = s.draws := rfl
@[simp] theorem State.reg_setWaiting (w : Option Nibble) (r : Nibble) : (s.setWaiting w).reg r = s.reg r := rfl
@[simp] theorem State.memRead_setWaiting (w : Option Nibble) (m : Nat) : (s.setWaiting w).memRead m = s.memRead m := rfl
@[simp] theorem State.slot_setWaiting (w : Option Nibble) (j : Nat) : (s.setWaiting w).slot j = s.slot j := rfl

/-! ## setDisplay -/

@[simp] theorem State.setDisplay_cfg (d : Display) : (s.setDisplay d).cfg = s.cfg := rfl
@[simp] theorem State.setDisplay_v (d : Display) : (s.setDisplay d).v = s.v := rfl
@[simp] theorem State.setDisplay_i (d : Display) : (s.setDisplay d).i = s.i := rfl
@[simp] theorem State.setDisplay_pc (d : Display) : (s.setDisplay d).pc = s.pc := rfl
@[simp] theorem State.setDisplay_stack (d : Display) : (s.setDisplay d).stack = s.stack := rfl
@[simp] theorem State.setDisplay_sp (d : Display) : (s.setDisplay d).sp = s.sp := rfl
@[simp] theorem State.setDisplay_dt (d : Display) : (s.setDisplay d).dt = s.dt := rfl
@[simp] theorem State.setDisplay_st (d : Display) : (s.setDisplay d).st = s.st := rfl
@[simp] theorem State.setDisplay_keys (d : Display) : (s.setDisplay d).keys = s.keys := rfl
@[simp] theorem State.setDisplay_waiting (d : Display) : (s.setDisplay d).waiting = s.waiting := rfl
@[simp] theorem State.setDisplay_display (d : Display) : (s.setDisplay d).display = d := rfl
@[simp] theorem State.setDisplay_mem (d : Display) : (s.setDisplay d).mem = s.mem := rfl
@[simp] theorem State.setDisplay_draws (d : Display) : (s.setDisplay d).draws = s.draws := rfl
@[simp] theorem State.reg_setDisplay (d : Display) (r : Nibble) : (s.setDisplay d).reg r = s.reg r := rfl
@[simp] theorem State.memRead_setDisplay (d : Display) (m : Nat) : (s.setDisplay d).memRead m = s.memRead m := rfl
@[simp] theorem State.slot_setDisplay (d : Display) (j : Nat) : (s.setDisplay d).slot j = s.slot j := rfl

/-! ## push -/

@[simp] theorem State.push_cfg (a : Addr) : (s.push a).cfg = s.cfg := rfl
@[simp] theorem State.push_v (a : Addr) : (s.push a).v = s.v := rfl
@[simp] theorem State.push_i (a : Addr) : (s.push a).i = s.i := rfl
@[simp] theorem State.push_pc (a : Addr) : (s.push a).pc = s.pc := rfl
@[simp] theorem State.push_stack (a : Addr) : (s.push a).stack = s.stack.set ((s.sp + 1) % s.cfg.stackDepth) a := rfl
@[simp] theorem State.push_sp (a : Addr) : (s.push a).sp = (s.sp + 1) % s.cfg.stackDepth := rfl
@[simp] theorem State.push_dt (a : Addr) : (s.push a).dt = s.dt := rfl
@[simp] theorem State.push_st (a : Addr) : (s.push a).st = s.st := rfl
@[simp] theorem State.push_keys (a : Addr) : (s.push a).keys = s.keys := rfl
@[simp] theorem State.push_waiting (a : Addr) : (s.push a).waiting = s.waiting := rfl
@[simp] theorem State.push_display (a : Addr) : (s.push a).display = s.display := rfl
@[simp] theorem State.push_mem (a : Addr) : (s.push a).mem = s.mem := rfl
@[simp] theorem State.push_draws (a : Addr) : (s.push a).draws = s.draws := rfl
@[simp] theorem State.reg_push (a : Addr) (r : Nibble) : (s.push a).reg r = s.reg r := rfl
@[simp] theorem State.memRead_push (a : Addr) (m : Nat) : (s.push a).memRead m = s.memRead m := rfl

/-! ## popPc -/

@[simp] theorem State.popPc_cfg : (s.popPc).cfg = s.cfg := rfl
@[simp] theorem State.popPc_v : (s.popPc).v = s.v := rfl
@[simp] theorem State.popPc_i : (s.popPc).i = s.i := rfl
@[simp] theorem State.popPc_pc : (s.popPc).pc = s.slot s.sp := rfl
@[simp] theorem State.popPc_stack : (s.popPc).stack = s.stack := rfl
@[simp] theorem State.popPc_sp : (s.popPc).sp = (s.sp + s.cfg.stackDepth - 1) % s.cfg.stackDepth := rfl
@[simp] theorem State.popPc_dt : (s.popPc).dt = s.dt := rfl
@[simp] theorem State.popPc_st : (s.popPc).st = s.st := rfl
@[simp] theorem State.popPc_keys : (s.popPc).keys = s.keys := rfl
@[simp] theorem State.popPc_waiting : (s.popPc).waiting = s.waiting := rfl
@[simp] theorem State.popPc_display : (s.popPc).display = s.display := rfl
@[simp] theorem State.popPc_mem : (s.popPc).mem = s.mem := rfl
@[simp] theorem State.popPc_draws : (s.popPc).draws = s.draws := rfl
@[simp] theorem State.reg_popPc (r : Nibble) : (s.popPc).reg r = s.reg r := rfl
@[simp] theorem State.memRead_popPc (m : Nat) : (s.popPc).memRead m = s.memRead m := rfl
@[simp] theorem State.slot_popPc (j : Nat) : (s.popPc).slot j = s.slot j := rfl

/-! ## countDraw -/

@[simp] theorem State.countDraw_cfg : (s.countDraw).cfg = s.cfg := rfl
@[simp] theorem State.countDraw_v : (s.countDraw).v = s.v := rfl
@[simp] theorem State.countDraw_i : (s.countDraw).i = s.i := rfl
@[simp] theorem State.countDraw_pc : (s.countDraw).pc = s.pc := rfl
@[simp] theorem State.countDraw_stack : (s.countDraw).stack = s.stack := rfl
@[simp] theorem State.countDraw_sp : (s.countDraw).sp = s.sp := rfl
@[simp] theorem State.countDraw_dt : (s.countDraw).dt = s.dt := rfl
@[simp] theorem State.countDraw_st : (s.countDraw).st = s.st := rfl
@[simp] theorem State.countDraw_keys : (s.countDraw).keys = s.keys := rfl
@[simp] theorem State.countDraw_waiting : (s.countDraw).waiting = s.waiting := rfl
@[simp] theorem State.countDraw_display : (s.countDraw).display = s.display := rfl
@[simp] theorem State.countDraw_mem : (s.countDraw).mem = s.mem := rfl
@[simp] theorem State.countDraw_draws : (s.countDraw).draws = s.draws + 1 := rfl
@[simp] theorem State.reg_countDraw (r : Nibble) : (s.countDraw).reg r = s.reg r := rfl
@[simp] theorem State.memRead_countDraw (m : Nat) : (s.countDraw).memRead m = s.memRead m := rfl
@[simp] theorem State.slot_countDraw (j : Nat) : (s.countDraw).slot j = s.slot j := rfl

/-! ## memWrite -/

@[simp] theorem State.memWrite_cfg (a : Nat) (b : Byte) : (s.memWrite a b).cfg = s.cfg := rfl
@[simp] theorem State.memWrite_v (a : Nat) (b : Byte) : (s.memWrite a b).v = s.v := rfl
@[simp] theorem State.memWrite_i (a : Nat) (b : Byte) : (s.memWrite a b).i = s.i := rfl
@[simp] theorem State.memWrite_pc (a : Nat) (b : Byte) : (s.memWrite a b).pc = s.pc := rfl
@[simp] theorem State.memWrite_stack (a : Nat) (b : Byte) : (s.memWrite a b).stack = s.stack := rfl
@[simp] theorem State.memWrite_sp (a : Nat) (b : Byte) : (s.memWrite a b).sp = s.sp := rfl
@[simp] theorem State.memWrite_dt (a : Nat) (b : Byte) : (s.memWrite a b).dt = s.dt := rfl
@[simp] theorem State.memWrite_st (a : Nat) (b : Byte) : (s.memWrite a b).st = s.st := rfl
@[simp] theorem State.memWrite_keys (a : Nat) (b : Byte) : (s.memWrite a b).keys = s.keys := rfl
@[simp] theorem State.memWrite_waiting (a : Nat) (b : Byte) : (s.memWrite a b).waiting = s.waiting := rfl
@[simp] theorem State.memWrite_display (a : Nat) (b : Byte) : (s.memWrite a b).display = s.display := rfl
@[simp] theorem State.memWrite_mem (a : Nat) (b : Byte) : (s.memWrite a b).mem = s.mem.write s.cfg (a % memSize) b := rfl
@[simp] theorem State.memWrite_draws (a : Nat) (b : Byte) : (s.memWrite a b).draws = s.draws := rfl
@[simp] theorem State.reg_memWrite (a : Nat) (b : Byte) (r : Nibble) : (s.memWrite a b).reg r = s.reg r := rfl
@[simp] theorem State.slot_memWrite (a : Nat) (b : Byte) (j : Nat) : (s.memWrite a b).slot j = s.slot j := rfl

/-! ## Conditional operations -/

@[simp] theorem State.skipIf_cfg (c : Bool) : (s.skipIf c).cfg = s.cfg := by
  unfold State.skipIf; split <;> rfl
@[simp] theorem State.skipIf_v (c : Bool) : (s.skipIf c).v = s.v := by
  unfold State.skipIf; split <;> rfl
@[simp] theorem State.skipIf_i (c : Bool) : (s.skipIf c).i = s.i := by
  unfold State.skipIf; split <;> rfl
@[simp] theorem State.skipIf_stack (c : Bool) : (s.skipIf c).stack = s.stack := by
  unfold State.skipIf; split <;> rfl
@[simp] theorem State.skipIf_sp (c : Bool) : (s.skipIf c).sp = s.sp := by
  unfold State.skipIf; split <;> rfl
@[simp] theorem State.skipIf_dt (c : Bool) : (s.skipIf c).dt = s.dt := by
  unfold State.skipIf; split <;> rfl
@[simp] theorem State.skipIf_st (c : Bool) : (s.skipIf c).st = s.st := by
  unfold State.skipIf; split <;> rfl
@[simp] theorem State.skipIf_keys (c : Bool) : (s.skipIf c).keys = s.keys := by
  unfold State.skipIf; split <;> rfl
@[simp] theorem State.skipIf_waiting (c : Bool) : (s.skipIf c).waiting = s.waiting := by
  unfold State.skipIf; split <;> rfl
@[simp] theorem State.skipIf_display (c : Bool) : (s.skipIf c).display = s.display := by
  unfold State.skipIf; split <;> rfl
@[simp] theorem State.skipIf_mem (c : Bool) : (s.skipIf c).mem = s.mem := by
  unfold State.skipIf; split <;> rfl
@[simp] theorem State.skipIf_draws (c : Bool) : (s.skipIf c).draws = s.draws := by
  unfold State.skipIf; split <;> rfl
@[simp] theorem State.reg_skipIf (c : Bool) (r : Nibble) : (s.skipIf c).reg r = s.reg r := by
  simp only [State.reg, State.skipIf_v]
@[simp] theorem State.memRead_skipIf (c : Bool) (m : Nat) : (s.skipIf c).memRead m = s.memRead m := by
  simp only [State.memRead, State.skipIf_mem, State.skipIf_cfg]
@[simp] theorem State.slot_skipIf (c : Bool) (j : Nat) : (s.skipIf c).slot j = s.slot j := by
  simp only [State.slot, State.skipIf_stack]

@[simp] theorem State.afterKeyTest_cfg (k : Byte) : (s.afterKeyTest k).cfg = s.cfg := by
  unfold State.afterKeyTest; split <;> rfl
@[simp] theorem State.afterKeyTest_v (k : Byte) : (s.afterKeyTest k).v = s.v := by
  unfold State.afterKeyTest; split <;> rfl
@[simp] theorem State.afterKeyTest_i (k : Byte) : (s.afterKeyTest k).i = s.i := by
  unfold State.afterKeyTest; split <;> rfl
@[simp] theorem State.afterKeyTest_pc (k : Byte) : (s.afterKeyTest k).pc = s.pc := by
  unfold State.afterKeyTest; split <;> rfl
@[simp] theorem State.afterKeyTest_stack (k : Byte) : (s.afterKeyTest k).stack = s.stack := by
  unfold State.afterKeyTest; split <;> rfl
@[simp] theorem State.afterKeyTest_sp (k : Byte) : (s.afterKeyTest k).sp = s.sp := by
  unfold State.afterKeyTest; split <;> rfl
@[simp] theorem State.afterKeyTest_dt (k : Byte) : (s.afterKeyTest k).dt = s.dt := by
  unfold State.afterKeyTest; split <;> rfl
@[simp] theorem State.afterKeyTest_st (k : Byte) : (s.afterKeyTest k).st = s.st := by
  unfold State.afterKeyTest; split <;> rfl
@[simp] theorem State.afterKeyTest_keys (k : Byte) : (s.afterKeyTest k).keys = s.keys := by
  unfold State.afterKeyTest; split <;> rfl
@[simp] theorem State.afterKeyTest_waiting (k : Byte) : (s.afterKeyTest k).waiting = s.waiting := by
  unfold State.afterKeyTest; split <;> rfl
@[simp] theorem State.afterKeyTest_display (k : Byte) : (s.afterKeyTest k).display = s.display := by
  unfold State.afterKeyTest; split <;> rfl
@[simp] theorem State.afterKeyTest_mem (k : Byte) : (s.afterKeyTest k).mem = s.mem := by
  unfold State.afterKeyTest; split <;> rfl
@[simp] theorem State.reg_afterKeyTest (k : Byte) (r : Nibble) : (s.afterKeyTest k).reg r = s.reg r := by
  simp only [State.reg, State.afterKeyTest_v]
@[simp] theorem State.memRead_afterKeyTest (k : Byte) (m : Nat) : (s.afterKeyTest k).memRead m = s.memRead m := by
  simp only [State.memRead, State.afterKeyTest_mem, State.afterKeyTest_cfg]
@[simp] theorem State.slot_afterKeyTest (k : Byte) (j : Nat) : (s.afterKeyTest k).slot j = s.slot j := by
  simp only [State.slot, State.afterKeyTest_stack]

@[simp] theorem State.skipIf_pc (c : Bool) : (s.skipIf c).pc = if c then s.pc + 2 else s.pc := by
  cases c <;> rfl
@[simp] theorem State.afterKeyTest_draws (k : Byte) :
    (s.afterKeyTest k).draws = if s.keyIsDrawn k then s.draws + 1 else s.draws := by
  unfold State.afterKeyTest; split <;> rfl

/-! ## Registers -/

theorem State.reg_setReg (x r : Nibble) (b : Byte) : (s.setReg x b).reg r = if r = x then b else s.reg r := by
  unfold State.reg State.setReg
  simp only [Vector.get_eq_getElem, Vector.getElem_set]
  by_cases h : r = x
  · subst h; simp
  · have : (x : Nat) ≠ r := fun e => h (Fin.ext e.symm)
    simp [h, this]

@[simp] theorem State.reg_setReg_self (x : Nibble) (b : Byte) : (s.setReg x b).reg x = b := by
  simp [State.reg_setReg]

theorem State.reg_setReg_of_ne (b : Byte) {x r : Nibble} (h : r ≠ x) : (s.setReg x b).reg r = s.reg r := by
  simp [State.reg_setReg, h]

theorem State.reg_setFlag (c : Bool) (r : Nibble) :
    (s.setFlag c).reg r = if r = vf then flagByte c else s.reg r := State.reg_setReg s vf r _

/-- The flag stays, whatever register the result went to (R94). -/
theorem State.reg_setRegFlag (x r : Nibble) (b : Byte) (c : Bool) :
    (s.setRegFlag x b c).reg r = if r = vf then flagByte c else if r = x then b else s.reg r := by
  simp [State.setRegFlag, State.reg_setFlag, State.reg_setReg]

/-- Registers are the only content of field `v`. -/
theorem State.v_ext {t : State} (h : ∀ r, t.reg r = s.reg r) : t.v = s.v := by
  apply Vector.ext
  intro k hk
  simpa [State.reg, Vector.get_eq_getElem] using h ⟨k, hk⟩

end Sys2Proof.Machine
end

