-- ==== Sys2Proof/Laws/Memory.lean ====
section
/-! SUPPORT. The laws of memory: a read after a write, and the canonical form that every operation keeps. -/
namespace Sys2Proof.Machine

variable {cfg : Params}

/-! ## Lists of cells -/

/-- `lo` is below `a`, where there is a `lo`. -/
abbrev Memory.Below (lo : Option Nat) (a : Nat) : Prop := ∀ b, lo = some b → b < a

theorem Memory.wfFrom_cons {lo : Option Nat} {a : Nat} {v : Byte} {m : Memory} :
    Memory.wfFrom cfg lo ((a, v) :: m) = true ↔
      Memory.Below lo a ∧ a < memSize ∧ v ≠ cfg.initByte a ∧ Memory.wfFrom cfg (some a) m = true := by
  cases lo <;> simp [Memory.wfFrom, Memory.Below, and_assoc]

theorem Memory.wfFrom_weaken {lo lo' : Option Nat} {m : Memory} (h : Memory.wfFrom cfg lo m = true)
    (hlo : ∀ a, Memory.Below lo a → Memory.Below lo' a) : Memory.wfFrom cfg lo' m = true := by
  cases m with
  | nil => rfl
  | cons c m =>
    obtain ⟨a, v⟩ := c
    rw [Memory.wfFrom_cons] at h ⊢
    exact ⟨hlo a h.1, h.2⟩

/-- An address not above the lower bound is not listed. -/
theorem Memory.read_of_not_below {lo a : Nat} {m : Memory} (h : Memory.wfFrom cfg (some lo) m = true) (ha : a ≤ lo) :
    Memory.read cfg m a = cfg.initByte a := by
  induction m generalizing lo with
  | nil => rfl
  | cons c m ih =>
    obtain ⟨b, v⟩ := c
    rw [Memory.wfFrom_cons] at h
    have hb : lo < b := h.1 lo rfl
    have hne : b ≠ a := by omega
    simp only [Memory.read, hne, if_false]
    exact ih h.2.2.2 (by omega)

theorem Memory.read_insert (m : Memory) (a b : Nat) (v : Byte) :
    Memory.read cfg (m.insert a v) b = if b = a then v else Memory.read cfg m b := by
  induction m with
  | nil =>
    by_cases h : b = a
    · simp [Memory.insert, Memory.read, h]
    · simp [Memory.insert, Memory.read, h, Ne.symm h]
  | cons c m ih =>
    obtain ⟨d, u⟩ := c
    simp only [Memory.insert]
    split
    · by_cases h : b = a
      · simp [Memory.read, h]
      · simp [Memory.read, h, Ne.symm h]
    · split
      · rename_i had
        subst had
        by_cases h : b = a
        · simp [Memory.read, h]
        · simp [Memory.read, h, Ne.symm h]
      · simp only [Memory.read, ih]
        by_cases h : b = a
        · subst h
          have : d ≠ b := fun e => ‹¬b = d› e.symm
          simp [this]
        · simp [h]

theorem Memory.read_erase_of_ne (m : Memory) {a b : Nat} (h : b ≠ a) :
    Memory.read cfg (m.erase a) b = Memory.read cfg m b := by
  induction m with
  | nil => rfl
  | cons c m ih =>
    obtain ⟨d, u⟩ := c
    simp only [Memory.erase]
    split
    · rename_i had
      subst had
      simp [Memory.read, Ne.symm h]
    · simp [Memory.read, ih]

theorem Memory.read_erase_self {lo : Option Nat} {m : Memory} (hm : Memory.wfFrom cfg lo m = true) (a : Nat) :
    Memory.read cfg (m.erase a) a = cfg.initByte a := by
  induction m generalizing lo with
  | nil => rfl
  | cons c m ih =>
    obtain ⟨d, u⟩ := c
    rw [Memory.wfFrom_cons] at hm
    simp only [Memory.erase]
    split
    · rename_i had
      subst had
      exact Memory.read_of_not_below hm.2.2.2 (Nat.le_refl _)
    · have : d ≠ a := fun e => ‹¬a = d› e.symm
      simp [Memory.read, this, ih hm.2.2.2]

/-- A write leaves every other address alone; no canonical form is needed. -/
theorem Memory.read_write_of_ne (m : Memory) {a b : Nat} (v : Byte) (h : b ≠ a) :
    Memory.read cfg (m.write cfg a v) b = Memory.read cfg m b := by
  unfold Memory.write
  split
  · exact Memory.read_erase_of_ne m h
  · simp [Memory.read_insert, h]

/-- A read after a write to the same address gives the byte written. -/
theorem Memory.read_write_self {m : Memory} (hm : m.wf cfg = true) (a : Nat) (v : Byte) :
    Memory.read cfg (m.write cfg a v) a = v := by
  unfold Memory.write
  split
  · rename_i h
    rw [h]
    exact Memory.read_erase_self hm a
  · simp [Memory.read_insert]

theorem Memory.wfFrom_insert {lo : Option Nat} {m : Memory} {a : Nat} {v : Byte} (hm : Memory.wfFrom cfg lo m = true)
    (hlo : Memory.Below lo a) (ha : a < memSize) (hv : v ≠ cfg.initByte a) :
    Memory.wfFrom cfg lo (m.insert a v) = true := by
  induction m generalizing lo with
  | nil =>
    simp only [Memory.insert]
    exact Memory.wfFrom_cons.2 ⟨hlo, ha, hv, rfl⟩
  | cons c m ih =>
    obtain ⟨d, u⟩ := c
    have hm' := Memory.wfFrom_cons.1 hm
    simp only [Memory.insert]
    split
    · rename_i had
      refine Memory.wfFrom_cons.2 ⟨hlo, ha, hv, Memory.wfFrom_cons.2 ⟨?_, hm'.2⟩⟩
      intro b hb
      cases hb
      exact had
    · split
      · rename_i had
        subst had
        exact Memory.wfFrom_cons.2 ⟨hlo, ha, hv, hm'.2.2.2⟩
      · refine Memory.wfFrom_cons.2 ⟨hm'.1, hm'.2.1, hm'.2.2.1, ih hm'.2.2.2 ?_⟩
        intro b hb
        cases hb
        omega

theorem Memory.wfFrom_erase {lo : Option Nat} {m : Memory} (a : Nat) (hm : Memory.wfFrom cfg lo m = true) :
    Memory.wfFrom cfg lo (m.erase a) = true := by
  induction m generalizing lo with
  | nil => rfl
  | cons c m ih =>
    obtain ⟨d, u⟩ := c
    have hm' := Memory.wfFrom_cons.1 hm
    simp only [Memory.erase]
    split
    · refine Memory.wfFrom_weaken hm'.2.2.2 ?_
      intro b hb e he
      exact Nat.lt_trans (hm'.1 e he) (hb d rfl)
    · exact Memory.wfFrom_cons.2 ⟨hm'.1, hm'.2.1, hm'.2.2.1, ih hm'.2.2.2⟩

/-- A write to an address of the space keeps the canonical form. -/
theorem Memory.wf_write {m : Memory} {a : Nat} (v : Byte) (hm : m.wf cfg = true) (ha : a < memSize) :
    (m.write cfg a v).wf cfg = true := by
  unfold Memory.write
  split
  · exact Memory.wfFrom_erase a hm
  · rename_i h
    exact Memory.wfFrom_insert hm (by intro b hb; cases hb) ha h

/-- The empty list is in canonical form. -/
theorem Memory.wf_nil : Memory.wf cfg [] = true := rfl

/-! ## The state's accesses -/

variable (s : State)

theorem State.memRead_mod (a : Nat) : s.memRead (a % memSize) = s.memRead a := by
  simp [State.memRead]

/-- `MemWrite` leaves every other byte alone (R56). -/
theorem State.memRead_memWrite_of_ne (b : Byte) {a m : Nat} (h : m % memSize ≠ a % memSize) :
    (s.memWrite a b).memRead m = s.memRead m :=
  Memory.read_write_of_ne s.mem b h

/-- `MemRead` after `MemWrite` (R56). -/
theorem State.memRead_memWrite {s : State} (hm : s.mem.wf s.cfg = true) (a m : Nat) (b : Byte) :
    (s.memWrite a b).memRead m = if m % memSize = a % memSize then b else s.memRead m := by
  split
  · rename_i h
    unfold State.memRead
    rw [h]
    exact Memory.read_write_self hm _ b
  · rename_i h
    exact State.memRead_memWrite_of_ne s b h

/-- `MemWrite` keeps the canonical form. -/
theorem State.memWrite_wf {s : State} (hm : s.mem.wf s.cfg = true) (a : Nat) (b : Byte) :
    (s.memWrite a b).mem.wf s.cfg = true :=
  Memory.wf_write b hm (Nat.mod_lt _ (by decide))

end Sys2Proof.Machine
end

