-- ==== Sys2Proof/Laws/Ops.lean ====
section
/-! SUPPORT. What the block operations, the stack and the key test can do, said once. -/
namespace Sys2Proof.Machine

variable (s : State)

theorem nibble_val {n : Nat} (h : n < 16) : (nibble n).val = n := Nat.mod_eq_of_lt h

@[simp] theorem nibble_of_val (x : Nibble) : nibble x.val = x := Fin.ext (Nat.mod_eq_of_lt x.isLt)

/-! ## storeRegs: memory only -/

@[simp] theorem State.storeRegs_cfg (n : Nat) : (s.storeRegs n).cfg = s.cfg := by
  induction n with
  | zero => rfl
  | succ n ih => exact ih
@[simp] theorem State.storeRegs_v (n : Nat) : (s.storeRegs n).v = s.v := by
  induction n with
  | zero => rfl
  | succ n ih => exact ih
@[simp] theorem State.storeRegs_i (n : Nat) : (s.storeRegs n).i = s.i := by
  induction n with
  | zero => rfl
  | succ n ih => exact ih
@[simp] theorem State.storeRegs_pc (n : Nat) : (s.storeRegs n).pc = s.pc := by
  induction n with
  | zero => rfl
  | succ n ih => exact ih
@[simp] theorem State.storeRegs_stack (n : Nat) : (s.storeRegs n).stack = s.stack := by
  induction n with
  | zero => rfl
  | succ n ih => exact ih
@[simp] theorem State.storeRegs_sp (n : Nat) : (s.storeRegs n).sp = s.sp := by
  induction n with
  | zero => rfl
  | succ n ih => exact ih
@[simp] theorem State.storeRegs_dt (n : Nat) : (s.storeRegs n).dt = s.dt := by
  induction n with
  | zero => rfl
  | succ n ih => exact ih
@[simp] theorem State.storeRegs_st (n : Nat) : (s.storeRegs n).st = s.st := by
  induction n with
  | zero => rfl
  | succ n ih => exact ih
@[simp] theorem State.storeRegs_keys (n : Nat) : (s.storeRegs n).keys = s.keys := by
  induction n with
  | zero => rfl
  | succ n ih => exact ih
@[simp] theorem State.storeRegs_waiting (n : Nat) : (s.storeRegs n).waiting = s.waiting := by
  induction n with
  | zero => rfl
  | succ n ih => exact ih
@[simp] theorem State.storeRegs_display (n : Nat) : (s.storeRegs n).display = s.display := by
  induction n with
  | zero => rfl
  | succ n ih => exact ih
@[simp] theorem State.storeRegs_draws (n : Nat) : (s.storeRegs n).draws = s.draws := by
  induction n with
  | zero => rfl
  | succ n ih => exact ih
@[simp] theorem State.reg_storeRegs (n : Nat) (r : Nibble) : (s.storeRegs n).reg r = s.reg r := by
  simp [State.reg]

/-- The stored bytes keep the canonical form. -/
theorem State.storeRegs_wf {s : State} (hm : s.mem.wf s.cfg = true) (n : Nat) :
    (s.storeRegs n).mem.wf s.cfg = true := by
  induction n with
  | zero => exact hm
  | succ n ih =>
    have := State.memWrite_wf (s := s.storeRegs n) (by simpa using ih) (s.i.toNat + n) (s.reg (nibble n))
    simpa [State.storeRegs] using this

/-- A byte outside the `n` stored ones is unchanged (R157). -/
theorem State.memRead_storeRegs_outside {n a : Nat}
    (h : ∀ k, k < n → a % memSize ≠ (s.i.toNat + k) % memSize) : (s.storeRegs n).memRead a = s.memRead a := by
  induction n with
  | zero => rfl
  | succ n ih =>
    simp only [State.storeRegs]
    rw [State.memRead_memWrite_of_ne _ _ (h n (Nat.lt_succ_self n))]
    exact ih (fun k hk => h k (Nat.lt_succ_of_lt hk))

/-- Stored byte `k` is V[k] (R157); at most 16 consecutive addresses are distinct (R55). -/
theorem State.memRead_storeRegs {s : State} (hm : s.mem.wf s.cfg = true) {n k : Nat} (hn : n ≤ 16) (hk : k < n) :
    (s.storeRegs n).memRead (s.i.toNat + k) = s.reg (nibble k) := by
  induction n with
  | zero => omega
  | succ n ih =>
    simp only [State.storeRegs]
    rw [State.memRead_memWrite (by simpa using State.storeRegs_wf hm n)]
    by_cases h : k = n
    · simp [h]
    · have hne : ¬ (s.i.toNat + k) % memSize = (s.i.toNat + n) % memSize := by simp only [memSize]; omega
      rw [if_neg hne]
      exact ih (by omega) (by omega)

/-! ## loadRegs: V registers only -/

@[simp] theorem State.loadRegs_cfg (n : Nat) : (s.loadRegs n).cfg = s.cfg := by
  induction n with
  | zero => rfl
  | succ n ih => exact ih
@[simp] theorem State.loadRegs_i (n : Nat) : (s.loadRegs n).i = s.i := by
  induction n with
  | zero => rfl
  | succ n ih => exact ih
@[simp] theorem State.loadRegs_pc (n : Nat) : (s.loadRegs n).pc = s.pc := by
  induction n with
  | zero => rfl
  | succ n ih => exact ih
@[simp] theorem State.loadRegs_stack (n : Nat) : (s.loadRegs n).stack = s.stack := by
  induction n with
  | zero => rfl
  | succ n ih => exact ih
@[simp] theorem State.loadRegs_sp (n : Nat) : (s.loadRegs n).sp = s.sp := by
  induction n with
  | zero => rfl
  | succ n ih => exact ih
@[simp] theorem State.loadRegs_dt (n : Nat) : (s.loadRegs n).dt = s.dt := by
  induction n with
  | zero => rfl
  | succ n ih => exact ih
@[simp] theorem State.loadRegs_st (n : Nat) : (s.loadRegs n).st = s.st := by
  induction n with
  | zero => rfl
  | succ n ih => exact ih
@[simp] theorem State.loadRegs_keys (n : Nat) : (s.loadRegs n).keys = s.keys := by
  induction n with
  | zero => rfl
  | succ n ih => exact ih
@[simp] theorem State.loadRegs_waiting (n : Nat) : (s.loadRegs n).waiting = s.waiting := by
  induction n with
  | zero => rfl
  | succ n ih => exact ih
@[simp] theorem State.loadRegs_display (n : Nat) : (s.loadRegs n).display = s.display := by
  induction n with
  | zero => rfl
  | succ n ih => exact ih
@[simp] theorem State.loadRegs_mem (n : Nat) : (s.loadRegs n).mem = s.mem := by
  induction n with
  | zero => rfl
  | succ n ih => exact ih
@[simp] theorem State.loadRegs_draws (n : Nat) : (s.loadRegs n).draws = s.draws := by
  induction n with
  | zero => rfl
  | succ n ih => exact ih
@[simp] theorem State.memRead_loadRegs (n m : Nat) : (s.loadRegs n).memRead m = s.memRead m := by
  simp [State.memRead]

/-- After loading `n` registers, V[r] is the byte at I + r for r < n, and unchanged otherwise (R158). -/
theorem State.reg_loadRegs {n : Nat} (hn : n ≤ 16) (r : Nibble) :
    (s.loadRegs n).reg r = if r.val < n then s.memRead (s.i.toNat + r.val) else s.reg r := by
  induction n with
  | zero => simp [State.loadRegs]
  | succ n ih =>
    have hv : (nibble n).val = n := nibble_val (by omega)
    simp only [State.loadRegs, State.reg_setReg]
    by_cases h : r = nibble n
    · have hr : r.val = n := by rw [h]; exact hv
      simp [h, hv]
    · have hr : r.val ≠ n := fun e => h (Fin.ext (by rw [hv]; exact e))
      rw [if_neg h, ih (by omega)]
      by_cases h2 : r.val < n
      · simp [h2, Nat.lt_succ_of_lt h2]
      · have h3 : ¬ r.val < n + 1 := by omega
        simp [h2, h3]

/-! ## loadBytes: memory only -/

@[simp] theorem State.loadBytes_cfg (bs : List Byte) (a : Nat) : (State.loadBytes bs a s).cfg = s.cfg := by
  induction bs generalizing a s with
  | nil => rfl
  | cons b bs ih => exact ih (s.memWrite a b) (a + 1)
@[simp] theorem State.loadBytes_v (bs : List Byte) (a : Nat) : (State.loadBytes bs a s).v = s.v := by
  induction bs generalizing a s with
  | nil => rfl
  | cons b bs ih => exact ih (s.memWrite a b) (a + 1)
@[simp] theorem State.loadBytes_i (bs : List Byte) (a : Nat) : (State.loadBytes bs a s).i = s.i := by
  induction bs generalizing a s with
  | nil => rfl
  | cons b bs ih => exact ih (s.memWrite a b) (a + 1)
@[simp] theorem State.loadBytes_pc (bs : List Byte) (a : Nat) : (State.loadBytes bs a s).pc = s.pc := by
  induction bs generalizing a s with
  | nil => rfl
  | cons b bs ih => exact ih (s.memWrite a b) (a + 1)
@[simp] theorem State.loadBytes_stack (bs : List Byte) (a : Nat) : (State.loadBytes bs a s).stack = s.stack := by
  induction bs generalizing a s with
  | nil => rfl
  | cons b bs ih => exact ih (s.memWrite a b) (a + 1)
@[simp] theorem State.loadBytes_sp (bs : List Byte) (a : Nat) : (State.loadBytes bs a s).sp = s.sp := by
  induction bs generalizing a s with
  | nil => rfl
  | cons b bs ih => exact ih (s.memWrite a b) (a + 1)
@[simp] theorem State.loadBytes_dt (bs : List Byte) (a : Nat) : (State.loadBytes bs a s).dt = s.dt := by
  induction bs generalizing a s with
  | nil => rfl
  | cons b bs ih => exact ih (s.memWrite a b) (a + 1)
@[simp] theorem State.loadBytes_st (bs : List Byte) (a : Nat) : (State.loadBytes bs a s).st = s.st := by
  induction bs generalizing a s with
  | nil => rfl
  | cons b bs ih => exact ih (s.memWrite a b) (a + 1)
@[simp] theorem State.loadBytes_keys (bs : List Byte) (a : Nat) : (State.loadBytes bs a s).keys = s.keys := by
  induction bs generalizing a s with
  | nil => rfl
  | cons b bs ih => exact ih (s.memWrite a b) (a + 1)
@[simp] theorem State.loadBytes_waiting (bs : List Byte) (a : Nat) : (State.loadBytes bs a s).waiting = s.waiting := by
  induction bs generalizing a s with
  | nil => rfl
  | cons b bs ih => exact ih (s.memWrite a b) (a + 1)
@[simp] theorem State.loadBytes_display (bs : List Byte) (a : Nat) : (State.loadBytes bs a s).display = s.display := by
  induction bs generalizing a s with
  | nil => rfl
  | cons b bs ih => exact ih (s.memWrite a b) (a + 1)
@[simp] theorem State.loadBytes_draws (bs : List Byte) (a : Nat) : (State.loadBytes bs a s).draws = s.draws := by
  induction bs generalizing a s with
  | nil => rfl
  | cons b bs ih => exact ih (s.memWrite a b) (a + 1)
@[simp] theorem State.reg_loadBytes (bs : List Byte) (a : Nat) (r : Nibble) : (State.loadBytes bs a s).reg r = s.reg r := by
  simp [State.reg]

/-- Loading bytes keeps the canonical form. -/
theorem State.loadBytes_wf (bs : List Byte) (a : Nat) {s : State} (hm : s.mem.wf s.cfg = true) :
    (State.loadBytes bs a s).mem.wf s.cfg = true := by
  induction bs generalizing a s with
  | nil => exact hm
  | cons b bs ih => exact ih (a + 1) (s := s.memWrite a b) (State.memWrite_wf hm a b)

/-- A byte outside the loaded ones is unchanged. -/
theorem State.memRead_loadBytes_outside (bs : List Byte) {a m : Nat}
    (h : ∀ j, j < bs.length → m % memSize ≠ (a + j) % memSize) :
    (State.loadBytes bs a s).memRead m = s.memRead m := by
  induction bs generalizing a s with
  | nil => rfl
  | cons b bs ih =>
    simp only [State.loadBytes]
    rw [ih (s.memWrite a b) (fun j hj => by
      have := h (j + 1) (by simpa using hj)
      rwa [show a + 1 + j = a + (j + 1) by omega])]
    exact State.memRead_memWrite_of_ne s b (by simpa using h 0 (by simp))

/-- Loaded byte `j` is at address a + j, where the bytes do not overlap themselves (R243). -/
theorem State.memRead_loadBytes {s : State} (bs : List Byte) {a j : Nat} (hm : s.mem.wf s.cfg = true)
    (hfit : a + bs.length ≤ memSize) (hj : j < bs.length) :
    (State.loadBytes bs a s).memRead (a + j) = bs[j] := by
  induction bs generalizing a j s with
  | nil => simp at hj
  | cons b bs ih =>
    simp only [State.loadBytes]
    simp only [List.length_cons] at hfit hj
    cases j with
    | zero =>
      rw [State.memRead_loadBytes_outside]
      · rw [State.memRead_memWrite hm]; simp
      · intro k hk
        simp only [memSize] at hfit ⊢
        omega
    | succ j =>
      have := ih (s := s.memWrite a b) (a := a + 1) (j := j) (State.memWrite_wf hm a b) (by omega) (by omega)
      rw [show a + (j + 1) = a + 1 + j by omega]
      simpa using this

/-! ## Stack -/

/-- The slot a push writes reads as the pushed value, where it is a slot (R27). -/
theorem State.slot_push (a : Addr) (j : Nat) (h : (s.sp + 1) % s.cfg.stackDepth < s.stack.length) :
    (s.push a).slot j = if j = (s.sp + 1) % s.cfg.stackDepth then a else s.slot j := by
  unfold State.slot
  rw [State.push_stack]
  by_cases hj : j = (s.sp + 1) % s.cfg.stackDepth
  · subst hj; simp [h]
  · simp [hj, List.getElem?_set_ne (Ne.symm hj)]

/-- SP stays an index of a slot after a push (R27, R34). -/
theorem State.push_sp_lt (a : Addr) (h : 0 < s.cfg.stackDepth) : (s.push a).sp < s.cfg.stackDepth :=
  Nat.mod_lt _ h

/-- SP stays an index of a slot after a pop (R27, R34). -/
theorem State.popPc_sp_lt (h : 0 < s.cfg.stackDepth) : s.popPc.sp < s.cfg.stackDepth :=
  Nat.mod_lt _ h

/-! ## Key test -/

/-- A key code in range reads K (R195). -/
theorem State.key_in_range {k : Byte} (h : k.toNat ≤ 15) (bit : Bool) :
    s.key k bit = s.keys.get ⟨k.toNat, Nat.lt_succ_of_le h⟩ := by
  have : lowNibble k = ⟨k.toNat, Nat.lt_succ_of_le h⟩ := by
    apply Fin.ext; simp [lowNibble, nibble]; omega
  simp [State.key, h, this]

/-- The draw bit is read exactly where `keyIsDrawn` says so (R195, R96). -/
theorem State.key_not_drawn {k : Byte} (h : s.keyIsDrawn k = false) (b c : Bool) : s.key k b = s.key k c := by
  unfold State.key
  split
  · rfl
  · rename_i hk
    cases hc : s.cfg.keyOor with
    | mask => rfl
    | draw => simp [State.keyIsDrawn, hc] at h; omega

/-! ## Flags -/

/-- A flag byte is 0 or 1 (R22). -/
theorem flagByte_cases (c : Bool) : flagByte c = 0 ∨ flagByte c = 1 := by cases c <;> simp [flagByte]

@[simp] theorem flagByte_true : flagByte true = 1 := rfl
@[simp] theorem flagByte_false : flagByte false = 0 := rfl
@[simp] theorem flagByte_eq_one {c : Bool} : flagByte c = 1#8 ↔ c = true := by cases c <;> simp [flagByte]
@[simp] theorem flagByte_eq_zero {c : Bool} : flagByte c = 0#8 ↔ c = false := by cases c <;> simp [flagByte]

end Sys2Proof.Machine
end

