-- ==== Sys2Proof/Laws/Exec.lean ====
section
/-! SUPPORT. What a body, a step and a host operation can do, said once, so that no later proof unfolds them. -/
namespace Sys2Proof.Machine

/-- Every body answers a next state. -/
theorem exec_next (i : Instr) (s : State) : ∃ t, exec i s = .next t := by
  cases i <;> exact ⟨_, rfl⟩

/-- No body changes the parameters. -/
theorem exec_cfg {i : Instr} {s t : State} (h : exec i s = .next t) : t.cfg = s.cfg := by
  cases i <;> cases h <;> simp [State.setMasked]

/-- A step that answers a next state ran from W = none, and ran the body of the fetched instruction or, on a no-op
word, only advanced pc (R90 to R95). -/
theorem step_cases {s t : State} (h : step s = .next t) :
    s.waiting = none ∧
      ((∃ i, decode s.fetch = .instr i ∧ exec i s.nextWord = .next t) ∨
        ((∃ g, decode s.fetch = .noop g) ∧ t = s.nextWord)) := by
  unfold step at h
  split at h
  · cases h
  · rename_i hw
    refine ⟨hw, ?_⟩
    unfold execDecoded State.fetchDecode at h
    split at h
    · rename_i i hi
      exact .inl ⟨i, hi, h⟩
    · rename_i g hg
      cases h
      exact .inr ⟨⟨g, hg⟩, rfl⟩

/-- KeyDown writes K, W and at most one V register; what it leaves alone (R222). -/
theorem keyDown_frame (s : State) (k : Nibble) :
    (s.keyDown k).cfg = s.cfg ∧ (s.keyDown k).stack = s.stack ∧ (s.keyDown k).sp = s.sp ∧
      (s.keyDown k).mem = s.mem ∧ (s.keyDown k).display = s.display ∧ (s.keyDown k).pc = s.pc ∧
      (s.keyDown k).i = s.i ∧ (s.keyDown k).dt = s.dt ∧ (s.keyDown k).st = s.st ∧
      (s.keyDown k).draws = s.draws := by
  unfold State.keyDown
  split <;> simp

/-- KeyDown leaves no wait (R222). -/
theorem keyDown_waiting (s : State) (k : Nibble) : (s.keyDown k).waiting = none := by
  unfold State.keyDown
  split <;> simp [*]

/-- Tick on one timer: down by 1, stopping at 0 (R220). -/
theorem timerDown_toNat (b : Byte) : (timerDown b).toNat = b.toNat - 1 := by
  revert b
  decide

end Sys2Proof.Machine
end

