-- ==== Sys2Proof/Laws/PerInstr.lean ====
section
/-! SUPPORT. Per instruction: the word the encoder makes lies in the instruction's row of the opcode map (R75). -/
namespace Sys2Proof.Laws.EncodesInRow

/-- The encoded word selects a row of R75 that carries the instruction's mnemonic. -/
def Statement (i : Instr) : Prop :=
  ∃ row ∈ opcodeRows, row.mnemonic = i.mnemonic ∧ row.selects (encode i) = true

/-- A row of the map whose mask and pattern fit the word. -/
theorem of_row {i : Instr} (row : OpcodeRow) (hr : row ∈ opcodeRows) (hm : row.mnemonic = i.mnemonic)
    (hs : encode i &&& row.mask = row.pattern) : Statement i :=
  ⟨row, hr, hm, by simp [OpcodeRow.selects, hs]⟩

theorem cls : Statement .cls :=
  of_row ⟨"CLS", 0x00E0, 0xFFFF⟩ (by decide) rfl (by decide)

theorem ret : Statement .ret :=
  of_row ⟨"RET", 0x00EE, 0xFFFF⟩ (by decide) rfl (by decide)

theorem jp (nnn : Addr) : Statement (.jp nnn) :=
  of_row ⟨"JP_nnn", 0x1000, 0xF000⟩ (by decide) rfl ((layoutAddr_group _ _).trans (by decide))

theorem call (nnn : Addr) : Statement (.call nnn) :=
  of_row ⟨"CALL_nnn", 0x2000, 0xF000⟩ (by decide) rfl ((layoutAddr_group _ _).trans (by decide))

theorem seImm (x : Nibble) (kk : Byte) : Statement (.seImm x kk) :=
  of_row ⟨"SE_Vx__kk", 0x3000, 0xF000⟩ (by decide) rfl ((layoutRegByte_group _ _ _).trans (by decide))

theorem sneImm (x : Nibble) (kk : Byte) : Statement (.sneImm x kk) :=
  of_row ⟨"SNE_Vx__kk", 0x4000, 0xF000⟩ (by decide) rfl ((layoutRegByte_group _ _ _).trans (by decide))

theorem seReg (x y : Nibble) : Statement (.seReg x y) :=
  of_row ⟨"SE_Vx__Vy", 0x5000, 0xF00F⟩ (by decide) rfl ((layoutRegReg_selector _ _ _ _).trans (by decide))

theorem ldImm (x : Nibble) (kk : Byte) : Statement (.ldImm x kk) :=
  of_row ⟨"LD_Vx__kk", 0x6000, 0xF000⟩ (by decide) rfl ((layoutRegByte_group _ _ _).trans (by decide))

theorem addImm (x : Nibble) (kk : Byte) : Statement (.addImm x kk) :=
  of_row ⟨"ADD_Vx__kk", 0x7000, 0xF000⟩ (by decide) rfl ((layoutRegByte_group _ _ _).trans (by decide))

theorem ldReg (x y : Nibble) : Statement (.ldReg x y) :=
  of_row ⟨"LD_Vx__Vy", 0x8000, 0xF00F⟩ (by decide) rfl ((layoutRegReg_selector _ _ _ _).trans (by decide))

theorem or (x y : Nibble) : Statement (.or x y) :=
  of_row ⟨"OR_Vx__Vy", 0x8001, 0xF00F⟩ (by decide) rfl ((layoutRegReg_selector _ _ _ _).trans (by decide))

theorem and (x y : Nibble) : Statement (.and x y) :=
  of_row ⟨"AND_Vx__Vy", 0x8002, 0xF00F⟩ (by decide) rfl ((layoutRegReg_selector _ _ _ _).trans (by decide))

theorem xor (x y : Nibble) : Statement (.xor x y) :=
  of_row ⟨"XOR_Vx__Vy", 0x8003, 0xF00F⟩ (by decide) rfl ((layoutRegReg_selector _ _ _ _).trans (by decide))

theorem addReg (x y : Nibble) : Statement (.addReg x y) :=
  of_row ⟨"ADD_Vx__Vy", 0x8004, 0xF00F⟩ (by decide) rfl ((layoutRegReg_selector _ _ _ _).trans (by decide))

theorem sub (x y : Nibble) : Statement (.sub x y) :=
  of_row ⟨"SUB_Vx__Vy", 0x8005, 0xF00F⟩ (by decide) rfl ((layoutRegReg_selector _ _ _ _).trans (by decide))

theorem shr (x y : Nibble) : Statement (.shr x y) :=
  of_row ⟨"SHR_Vx__Vy", 0x8006, 0xF00F⟩ (by decide) rfl ((layoutRegReg_selector _ _ _ _).trans (by decide))

theorem subn (x y : Nibble) : Statement (.subn x y) :=
  of_row ⟨"SUBN_Vx__Vy", 0x8007, 0xF00F⟩ (by decide) rfl ((layoutRegReg_selector _ _ _ _).trans (by decide))

theorem shl (x y : Nibble) : Statement (.shl x y) :=
  of_row ⟨"SHL_Vx__Vy", 0x800E, 0xF00F⟩ (by decide) rfl ((layoutRegReg_selector _ _ _ _).trans (by decide))

theorem sneReg (x y : Nibble) : Statement (.sneReg x y) :=
  of_row ⟨"SNE_Vx__Vy", 0x9000, 0xF00F⟩ (by decide) rfl ((layoutRegReg_selector _ _ _ _).trans (by decide))

theorem ldI (nnn : Addr) : Statement (.ldI nnn) :=
  of_row ⟨"LD_I__nnn", 0xA000, 0xF000⟩ (by decide) rfl ((layoutAddr_group _ _).trans (by decide))

theorem jpV0 (nnn : Addr) : Statement (.jpV0 nnn) :=
  of_row ⟨"JP_V0__nnn", 0xB000, 0xF000⟩ (by decide) rfl ((layoutAddr_group _ _).trans (by decide))

theorem rnd (x : Nibble) (kk : Byte) : Statement (.rnd x kk) :=
  of_row ⟨"RND_Vx__kk", 0xC000, 0xF000⟩ (by decide) rfl ((layoutRegByte_group _ _ _).trans (by decide))

theorem drw (x y n : Nibble) : Statement (.drw x y n) :=
  of_row ⟨"DRW_Vx__Vy__n", 0xD000, 0xF000⟩ (by decide) rfl ((layoutRegReg_group _ _ _ _).trans (by decide))

theorem skp (x : Nibble) : Statement (.skp x) :=
  of_row ⟨"SKP_Vx", 0xE09E, 0xF0FF⟩ (by decide) rfl ((layoutRegByte_subop _ _ _).trans (by decide))

theorem sknp (x : Nibble) : Statement (.sknp x) :=
  of_row ⟨"SKNP_Vx", 0xE0A1, 0xF0FF⟩ (by decide) rfl ((layoutRegByte_subop _ _ _).trans (by decide))

theorem ldVxDt (x : Nibble) : Statement (.ldVxDt x) :=
  of_row ⟨"LD_Vx__DT", 0xF007, 0xF0FF⟩ (by decide) rfl ((layoutRegByte_subop _ _ _).trans (by decide))

theorem ldVxK (x : Nibble) : Statement (.ldVxK x) :=
  of_row ⟨"LD_Vx__K", 0xF00A, 0xF0FF⟩ (by decide) rfl ((layoutRegByte_subop _ _ _).trans (by decide))

theorem ldDtVx (x : Nibble) : Statement (.ldDtVx x) :=
  of_row ⟨"LD_DT__Vx", 0xF015, 0xF0FF⟩ (by decide) rfl ((layoutRegByte_subop _ _ _).trans (by decide))

theorem ldStVx (x : Nibble) : Statement (.ldStVx x) :=
  of_row ⟨"LD_ST__Vx", 0xF018, 0xF0FF⟩ (by decide) rfl ((layoutRegByte_subop _ _ _).trans (by decide))

theorem addIVx (x : Nibble) : Statement (.addIVx x) :=
  of_row ⟨"ADD_I__Vx", 0xF01E, 0xF0FF⟩ (by decide) rfl ((layoutRegByte_subop _ _ _).trans (by decide))

theorem ldFVx (x : Nibble) : Statement (.ldFVx x) :=
  of_row ⟨"LD_F__Vx", 0xF029, 0xF0FF⟩ (by decide) rfl ((layoutRegByte_subop _ _ _).trans (by decide))

theorem ldBVx (x : Nibble) : Statement (.ldBVx x) :=
  of_row ⟨"LD_B__Vx", 0xF033, 0xF0FF⟩ (by decide) rfl ((layoutRegByte_subop _ _ _).trans (by decide))

theorem ldMemVx (x : Nibble) : Statement (.ldMemVx x) :=
  of_row ⟨"LD__I___Vx", 0xF055, 0xF0FF⟩ (by decide) rfl ((layoutRegByte_subop _ _ _).trans (by decide))

theorem ldVxMem (x : Nibble) : Statement (.ldVxMem x) :=
  of_row ⟨"LD_Vx___I", 0xF065, 0xF0FF⟩ (by decide) rfl ((layoutRegByte_subop _ _ _).trans (by decide))

end Sys2Proof.Laws.EncodesInRow
end

