-- ==== Sys2Proof/Laws/Screen.lean ====
section
/-! SUPPORT. Pixels after the display's operations, and what one sprite bit does. -/
namespace Sys2Proof.Machine

/-- Displays with the same pixels are the same data. -/
theorem Display.ext_pixel {d e : Display} (h : ∀ r c, d.pixel r c = e.pixel r c) : d = e := by
  apply Vector.ext
  intro r hr
  apply Vector.ext
  intro c hc
  simpa [Display.pixel, Vector.get_eq_getElem] using h ⟨r, hr⟩ ⟨c, hc⟩

/-- A toggle changes exactly its pixel (R173). -/
theorem Display.pixel_flip (d : Display) (r r' : Fin 32) (c c' : Fin 64) :
    (d.flip r c).pixel r' c' = if r' = r ∧ c' = c then !d.pixel r c else d.pixel r' c' := by
  unfold Display.flip Display.pixel
  simp only [Vector.get_eq_getElem, Vector.getElem_set]
  by_cases hr : r' = r
  · subst hr
    by_cases hc : c' = c
    · subst hc; simp
    · have : (c : Nat) ≠ c' := fun e => hc (Fin.ext e.symm)
      simp [hc, this]
  · have : (r : Nat) ≠ r' := fun e => hr (Fin.ext e.symm)
    simp [hr, this]

/-- The clear display is all 0 (R170). -/
@[simp] theorem Display.pixel_clear (r : Fin 32) (c : Fin 64) : Display.clear.pixel r c = false := by
  simp [Display.clear, Display.pixel, Vector.get_eq_getElem]

variable (cx cy b : Byte) (r c : Nat) (p : Blit)

/-- The pixels after one sprite bit (R173). -/
theorem blitPixel_pixel (r' : Fin 32) (c' : Fin 64) :
    (blitPixel cx cy b r c p).display.pixel r' c' =
      if spriteBit b c = true ∧ r' = pixelRow cy r ∧ c' = pixelCol cx c then !p.display.pixel r' c'
      else p.display.pixel r' c' := by
  unfold blitPixel
  by_cases h : spriteBit b c = true
  · simp only [h, if_true, true_and, Display.pixel_flip]
    by_cases hp : r' = pixelRow cy r ∧ c' = pixelCol cx c
    · rw [if_pos hp, if_pos hp, hp.1, hp.2]
    · rw [if_neg hp, if_neg hp]
  · simp [h]

/-- The collision so far after one sprite bit (R174). -/
theorem blitPixel_hit :
    (blitPixel cx cy b r c p).hit =
      (p.hit || (spriteBit b c && p.display.pixel (pixelRow cy r) (pixelCol cx c))) := by
  unfold blitPixel
  by_cases h : spriteBit b c = true <;> simp [h]

/-! ## Sprite bits as a list -/

/-- The pixel a sprite bit lands on (R175). -/
abbrev pixelOf (cx cy : Byte) (bit : Nat × Nat) : Fin 32 × Fin 64 := (pixelRow cy bit.1, pixelCol cx bit.2)

theorem spriteBits_succ (n : Nat) :
    spriteBits (n + 1) = spriteBits n ++ (List.range 8).map (fun c => (n, c)) := by
  simp [spriteBits, List.range_succ]

theorem mem_spriteBits {n r c : Nat} : (r, c) ∈ spriteBits n ↔ r < n ∧ c < 8 := by
  simp [spriteBits]

theorem blitRow_eq_foldl (n : Nat) :
    blitRow cx cy b r n p = (List.range n).foldl (fun q c => blitPixel cx cy b r c q) p := by
  induction n with
  | zero => rfl
  | succ n ih => simp [blitRow, ih, List.range_succ]

/-- The blitter visits the sprite's bits row by row (R173). -/
theorem blitRows_eq_foldl (sprite : Nat → Byte) (n : Nat) :
    blitRows sprite cx cy n p =
      (spriteBits n).foldl (fun q bit => blitPixel cx cy (sprite bit.1) bit.1 bit.2 q) p := by
  induction n with
  | zero => rfl
  | succ n ih =>
    rw [spriteBits_succ, List.foldl_append, ← ih, List.foldl_map]
    exact blitRow_eq_foldl cx cy (sprite n) n _ 8

end Sys2Proof.Machine
end

