-- ==== Sys2Proof/Tests/Slice0.lean ====
section
/-! SUPPORT. Tests: well-formedness, written-out words, the vectors of spec/95_test_vectors.md (each named by its id),
and for every statement with hypotheses a witness that meets them. Expected values are the spec's. -/
namespace Sys2Proof.Tests

open Sys2Proof Sys2Proof.Machine

/-! ## Well-formedness: an ill-formed term for each check -/

theorem test_default_parameters_are_well_formed : Params.default.wellFormed = true := by decide
theorem test_stack_depth_11_is_refused : { Params.default with stackDepth := 11 }.wellFormed = false := by decide
theorem test_stack_depth_17_is_refused : { Params.default with stackDepth := 17 }.wellFormed = false := by decide
theorem test_stack_depths_12_and_16_are_accepted :
    { Params.default with stackDepth := 12 }.wellFormed = true ∧
      { Params.default with stackDepth := 16 }.wellFormed = true := by decide
/-- R2, R3 of spec/95: 3584 bytes fit at 0x200, 3585 do not. -/
theorem test_rom_of_3585_bytes_is_refused :
    romFits Params.default (List.replicate 3585 0) = false ∧ romFits Params.default (List.replicate 3584 0) = true := by
  unfold romFits
  rw [List.length_replicate, List.length_replicate]
  decide
theorem test_reset_with_an_ill_formed_depth_is_refused :
    resetWellFormed { Params.default with stackDepth := 17 } [] = false ∧
      resetWellFormed Params.default [0x60, 0x0A] = true := by decide
theorem test_memory_out_of_order_is_refused :
    Memory.wf Params.default [(0x301, 1), (0x300, 2)] = false ∧
      Memory.wf Params.default [(0x300, 2), (0x300, 2)] = false := by decide
theorem test_memory_listing_a_reset_byte_is_refused :
    Memory.wf Params.default [(0x300, 0)] = false ∧ Memory.wf Params.default [(0x000, 0xF0)] = false := by decide
theorem test_memory_beyond_the_space_is_refused :
    Memory.wf Params.default [(4096, 1)] = false ∧ Memory.wf Params.default [(0, 1), (4095, 1)] = true := by decide
theorem test_state_with_sp_at_the_depth_breaks_the_invariant :
    ¬({ State.reset with sp := 16 } : State).Inv ∧ ¬({ State.reset with stack := [] } : State).Inv := by decide

/-! ## Decoding: words written out bit by bit from spec/30_encoding.md R72 and R75, one per constructor -/

theorem test_decode_control :
    decode 0b0000000011101110#16 = .instr .ret ∧ decode 0b0001001000110100#16 = .instr (.jp 0x234) ∧
      decode 0b0010001100000001#16 = .instr (.call 0x301) ∧ decode 0b0011101000111100#16 = .instr (.seImm 0xA 0x3C) ∧
      decode 0b0100101000111100#16 = .instr (.sneImm 0xA 0x3C) ∧ decode 0b0101000100100000#16 = .instr (.seReg 1 2) ∧
      decode 0b1001111000100000#16 = .instr (.sneReg 0xE 2) ∧ decode 0b1011111111111110#16 = .instr (.jpV0 0xFFE) := by
  decide
theorem test_decode_alu_immediate_and_random :
    decode 0b0110111110101011#16 = .instr (.ldImm 0xF 0xAB) ∧ decode 0b0111000011111111#16 = .instr (.addImm 0 0xFF) ∧
      decode 0b1100001100001111#16 = .instr (.rnd 3 0x0F) := by
  decide
theorem test_decode_alu_register :
    decode 0b1000000100100000#16 = .instr (.ldReg 1 2) ∧ decode 0b1000000100100001#16 = .instr (.or 1 2) ∧
      decode 0b1000000100100010#16 = .instr (.and 1 2) ∧ decode 0b1000000100100011#16 = .instr (.xor 1 2) ∧
      decode 0b1000000111110100#16 = .instr (.addReg 1 0xF) ∧ decode 0b1000111100010101#16 = .instr (.sub 0xF 1) ∧
      decode 0b1000000100100110#16 = .instr (.shr 1 2) ∧ decode 0b1000000100100111#16 = .instr (.subn 1 2) ∧
      decode 0b1000000100101110#16 = .instr (.shl 1 2) := by
  decide
theorem test_decode_index :
    decode 0b1010001000001010#16 = .instr (.ldI 0x20A) ∧ decode 0b1111001000011110#16 = .instr (.addIVx 2) ∧
      decode 0b1111001100101001#16 = .instr (.ldFVx 3) ∧ decode 0b1111010100110011#16 = .instr (.ldBVx 5) ∧
      decode 0b1111001001010101#16 = .instr (.ldMemVx 2) ∧ decode 0b1111111101100101#16 = .instr (.ldVxMem 0xF) := by
  decide
theorem test_decode_screen :
    decode 0b0000000011100000#16 = .instr .cls ∧ decode 0b1101000100100101#16 = .instr (.drw 1 2 5) := by
  decide
theorem test_decode_timer_and_key :
    decode 0b1110000110011110#16 = .instr (.skp 1) ∧ decode 0b1110000110100001#16 = .instr (.sknp 1) ∧
      decode 0b1111001100000111#16 = .instr (.ldVxDt 3) ∧ decode 0b1111001100001010#16 = .instr (.ldVxK 3) ∧
      decode 0b1111001100010101#16 = .instr (.ldDtVx 3) ∧ decode 0b1111001100011000#16 = .instr (.ldStVx 3) := by
  decide
/-- E2 to E9. -/
theorem test_decode_no_ops :
    decode 0x0000 = .noop .group0 ∧ decode 0x0123 = .noop .group0 ∧ decode 0x00E1 = .noop .group0 ∧
      decode 0x5121 = .noop .group5 ∧ decode 0x8128 = .noop .group8 ∧ decode 0x9121 = .noop .group9 ∧
      decode 0xE19F = .noop .groupE ∧ decode 0xF130 = .noop .groupF ∧ decode 0xFFFF = .noop .groupF := by
  decide
theorem test_table_word : decodeTableWord 16 0x8124 = some (.addReg 1 2) ∧ decodeTableWord 16 0x0000 = none := by decide

/-! ## One step -/

/-- The word `w` at pc runs to a next state, of which `p` holds. -/
def runs (s : State) (w : Nat) (p : State → Bool) : Bool :=
  match step (s.withFetchWord 16 w) with
  | .next t => p t
  | .fault _ => false
  | .refused _ => false

/-- The operation answers a next state, of which `p` holds. -/
def does (s : State) (op : HostOp) (p : State → Bool) : Bool :=
  match op.apply s with
  | .next t => p t
  | .fault _ => false
  | .refused _ => false

/-- The schedule runs to a next state. -/
def completes (ops : List HostOp) (s : State) : Bool :=
  match HostOp.run ops s with
  | .next _ => true
  | .fault _ => false
  | .refused _ => false

theorem of_completes {ops : List HostOp} {s : State} (h : completes ops s = true) :
    ∃ t, HostOp.run ops s = .next t := by
  unfold completes at h
  split at h
  · exact ⟨_, ‹_›⟩
  · cases h
  · cases h

/-- The start of the vectors: the reset state (spec/95, "Starting state"). -/
abbrev start : State := State.reset

/-- The reset state under other parameters. -/
abbrev startVx : State := State.initial { Params.default with shiftSrc := .vx }
abbrev startAdvance : State := State.initial { Params.default with lsAdvance := .advance }
abbrev startMask : State := State.initial { Params.default with keyOor := .mask }
abbrev startDepth12 : State := State.initial { Params.default with stackDepth := 12 }

/-- Registers 1 and 2 set. -/
abbrev regs12 (s : State) (a b : Byte) : State := (s.setReg 1 a).setReg 2 b

/-! ### Execution cycle -/

theorem test_E1_big_endian : runs start 0x1234 (fun t => t.pc == 0x234) = true := by decide
theorem test_E6_no_op_of_group_8 :
    runs (regs12 start 3 4) 0x8128 (fun t => t.pc == 0x202 && t.reg 1 == 3 && t.reg vf == 0) = true := by decide
theorem test_E10_fetch_at_FFF :
    does ((start.setPc 0xFFF).memWrite 0xFFF 0x12) .step (fun t => t.pc == 0x2F0) = true := by decide
theorem test_E11_pc_wraps : runs (start.setPc 0xFFE) 0x6005 (fun t => t.pc == 0 && t.reg 0 == 5) = true := by decide
theorem test_E12_odd_pc : runs (start.setPc 0x301) 0x6307 (fun t => t.pc == 0x303 && t.reg 3 == 7) = true := by decide
theorem test_E13_step_is_held : HostOp.apply .step (start.setWaiting (some 3)) = .refused .heldForKey := by
  simp [HostOp.apply, step]

/-! ### Control transfer -/

theorem test_CT1_ret :
    runs ((start.push 0x204)) 0x00EE (fun t => t.pc == 0x204 && t.sp == 0 && t.slot 1 == 0x204) = true := by decide
theorem test_CT2_ret_underflow :
    runs start 0x00EE (fun t => t.pc == 0 && t.sp == 15) = true ∧
      runs startDepth12 0x00EE (fun t => t.sp == 11) = true := by decide
theorem test_CT4_jp_odd : runs start 0x1301 (fun t => t.pc == 0x301) = true := by decide
theorem test_CT6_call_at_FFE :
    runs (start.setPc 0xFFE) 0x2400 (fun t => t.sp == 1 && t.slot 1 == 0 && t.pc == 0x400) = true := by decide
theorem test_CT7_call_overflow :
    runs { start with sp := 15, stack := 0x456 :: List.replicate 15 0 } 0x2300
      (fun t => t.sp == 0 && t.slot 0 == 0x202) = true ∧
    runs { startDepth12 with sp := 11 } 0x2300 (fun t => t.sp == 0 && t.slot 0 == 0x202) = true := by decide
theorem test_CT11_jpV0_wraps : runs (start.setReg 0 5) 0xBFFE (fun t => t.pc == 0x003) = true := by decide
theorem test_CT12_jpV0_adds_V0 :
    runs ((start.setReg 5 0x0A).setReg 0 1) 0xB500 (fun t => t.pc == 0x501) = true := by decide
theorem test_CT13_CT14_seImm :
    runs (start.setReg 3 0x0A) 0x330A (fun t => t.pc == 0x204) = true ∧
      runs (start.setReg 3 0x0B) 0x330A (fun t => t.pc == 0x202) = true := by decide
theorem test_CT15_skip_wraps :
    runs ((start.setPc 0xFFC).setReg 3 0x0A) 0x330A (fun t => t.pc == 0) = true := by decide
theorem test_CT17_CT18_sneImm :
    runs (start.setReg 3 0x0A) 0x430A (fun t => t.pc == 0x202) = true ∧
      runs start 0x430A (fun t => t.pc == 0x204) = true := by decide
theorem test_CT19_CT20_seReg :
    runs (regs12 start 7 7) 0x5120 (fun t => t.pc == 0x204) = true ∧
      runs (regs12 start 7 8) 0x5120 (fun t => t.pc == 0x202) = true := by decide
theorem test_CT22_CT23_sneReg :
    runs (regs12 start 7 8) 0x9120 (fun t => t.pc == 0x204) = true ∧
      runs (start.setReg 4 9) 0x9440 (fun t => t.pc == 0x202) = true := by decide

/-! ### Registers, arithmetic and logic -/

theorem test_A2_ldImm_VF : runs start 0x6FAB (fun t => t.reg vf == 0xAB) = true := by decide
theorem test_A3_addImm_no_flag :
    runs ((start.setReg 0 1).setReg vf 7) 0x70FF (fun t => t.reg 0 == 0 && t.reg vf == 7) = true := by decide
theorem test_A6_ldReg : runs (regs12 start 0 0x33) 0x8120 (fun t => t.reg 1 == 0x33 && t.reg 2 == 0x33) = true := by
  decide
theorem test_A7_or :
    runs ((regs12 start 0xF0 0x0F).setReg vf 0x55) 0x8121 (fun t => t.reg 1 == 0xFF && t.reg vf == 0x55) = true := by
  decide
theorem test_A8_and :
    runs ((regs12 start 0xF3 0x3F).setReg vf 0x55) 0x8122 (fun t => t.reg 1 == 0x33 && t.reg vf == 0x55) = true := by
  decide
theorem test_A9_xor : runs (regs12 start 0xFF 0x0F) 0x8123 (fun t => t.reg 1 == 0xF0) = true := by decide
theorem test_W1_addReg :
    runs (regs12 start 0xFF 0x01) 0x8124 (fun t => t.reg 1 == 0 && t.reg vf == 1) = true ∧
      runs (regs12 start 0x7F 0x80) 0x8124 (fun t => t.reg 1 == 0xFF && t.reg vf == 0) = true := by decide
theorem test_A10_A11_addReg_with_VF :
    runs ((start.setReg vf 0x10).setReg 1 0x20) 0x8F14 (fun t => t.reg vf == 0) = true ∧
      runs ((start.setReg vf 0x20).setReg 1 0xF0) 0x81F4 (fun t => t.reg 1 == 0x10 && t.reg vf == 1) = true := by
  decide
theorem test_W2_sub :
    runs (regs12 start 0x05 0x07) 0x8125 (fun t => t.reg 1 == 0xFE && t.reg vf == 0) = true ∧
      runs (regs12 start 0x33 0x33) 0x8125 (fun t => t.reg 1 == 0 && t.reg vf == 1) = true := by decide
theorem test_A14_A15_sub_with_VF :
    runs ((start.setReg vf 5).setReg 1 7) 0x8F15 (fun t => t.reg vf == 0) = true ∧
      runs ((start.setReg vf 1).setReg 1 0x10) 0x81F5 (fun t => t.reg 1 == 0x0F && t.reg vf == 1) = true := by decide
theorem test_A17_shr :
    runs (regs12 startVx 0x05 0xFF) 0x8126 (fun t => t.reg 1 == 2 && t.reg vf == 1) = true ∧
      runs (regs12 start 0x05 0xFF) 0x8126 (fun t => t.reg 1 == 0x7F && t.reg vf == 1) = true := by decide
theorem test_A18_A19_shr_with_VF :
    runs ((start.setReg vf 9).setReg 2 2) 0x8F26 (fun t => t.reg vf == 0) = true ∧
      runs (start.setReg vf 0x81) 0x81F6 (fun t => t.reg 1 == 0x40 && t.reg vf == 1) = true := by decide
theorem test_A13_subn :
    runs (regs12 start 0x05 0x07) 0x8127 (fun t => t.reg 1 == 2 && t.reg vf == 1) = true ∧
      runs (regs12 start 0x07 0x05) 0x8127 (fun t => t.reg 1 == 0xFE && t.reg vf == 0) = true := by decide
theorem test_A20_shl :
    runs (regs12 start 0 0x81) 0x812E (fun t => t.reg 1 == 2 && t.reg vf == 1) = true ∧
      runs (regs12 start 0 0x7F) 0x812E (fun t => t.reg 1 == 0xFE && t.reg vf == 0) = true := by decide
theorem test_A21_shl :
    runs (regs12 startVx 0x81 0) 0x812E (fun t => t.reg 1 == 2 && t.reg vf == 1) = true ∧
      runs (regs12 start 0x81 0) 0x812E (fun t => t.reg 1 == 0 && t.reg vf == 0) = true := by decide
/-- The draw is an argument of `setMasked`, so the vectors' draws can be given. -/
theorem test_A22_rnd :
    (start.setMasked 0xA7 3 0x0F).reg 3 = 0x07 ∧ (start.setMasked 0x3C vf 0xF0).reg vf = 0x30 := by decide
theorem test_A22b_rnd_mask_0 : exec (.rnd 3 0) start = .next (start.setReg 3 0).countDraw := by
  simp [exec, execRnd, State.setMasked]

/-! ### Index, BCD, block transfer -/

theorem test_I1_ldI : runs start 0xA20A (fun t => t.i == 0x20A && t.pc == 0x202) = true := by decide
theorem test_I3_I5_addI :
    runs ((start.setI 0xFFE).setReg 2 3) 0xF21E (fun t => t.i == 1 && t.reg vf == 1) = true ∧
      runs ((start.setI 0xF00).setReg 1 0xFF) 0xF11E (fun t => t.i == 0xFFF && t.reg vf == 0) = true := by decide
theorem test_I7_addI_VF :
    runs ((start.setI 0x200).setReg vf 0x10) 0xFF1E (fun t => t.i == 0x210 && t.reg vf == 0) = true := by decide
theorem test_I11_glyph : runs (start.setReg 3 0x1A) 0xF329 (fun t => t.i == 0x032) = true := by decide
theorem test_I13_glyph_wraps :
    runs ((State.initial { Params.default with fontBase := 0xFF0 }).setReg 3 0x0F) 0xF329
      (fun t => t.i == 0x03B) = true := by decide
theorem test_I14_bcd :
    runs ((start.setI 0x300).setReg 5 0xFE) 0xF533
      (fun t => t.memRead 0x300 == 2 && t.memRead 0x301 == 5 && t.memRead 0x302 == 4 && t.i == 0x300) = true := by
  decide
theorem test_I21_bcd_wraps :
    runs ((start.setI 0xFFE).setReg 5 0x7B) 0xF533
      (fun t => t.memRead 0xFFE == 1 && t.memRead 0xFFF == 2 && t.memRead 0 == 3) = true := by decide
theorem test_I24_store_advance :
    runs ((regs12 startAdvance 2 3).setReg 0 1 |>.setI 0x300) 0xF255
      (fun t => t.memRead 0x300 == 1 && t.memRead 0x301 == 2 && t.memRead 0x302 == 3 && t.i == 0x303) = true := by
  decide
theorem test_I27_store_wraps :
    runs ((((regs12 start 0x22 0x33).setReg 0 0x11).setReg 3 0x44).setI 0xFFE) 0xF355
      (fun t => t.memRead 0xFFE == 0x11 && t.memRead 0xFFF == 0x22 && t.memRead 0 == 0x33 && t.memRead 1 == 0x44 &&
        t.i == 0xFFE) = true := by decide
theorem test_I30_load_all :
    runs ((start.memWrite 0x30F 0x5A).setI 0x300 |>.setReg 4 9) 0xFF65
      (fun t => t.reg vf == 0x5A && t.reg 4 == 0 && t.i == 0x300) = true := by decide
theorem test_I31_load_advance_wraps :
    runs ((startAdvance.memWrite 0xFFF 7).setI 0xFFF) 0xF165
      (fun t => t.reg 0 == 7 && t.reg 1 == 0xF0 && t.i == 1) = true := by decide

/-! ### Display -/

/-- Every listed pixel has the given value. -/
def shows (v : Bool) (at_ : List (Fin 32 × Fin 64)) (t : State) : Bool :=
  at_.all (fun p => t.display.pixel p.1 p.2 == v)

/-- The start with pixel (0, 0) on, I = 0x300 and byte `b` there. -/
abbrev dot (b : Byte) : State := ((start.setDisplay (start.display.flip 0 0)).setI 0x300).memWrite 0x300 b

theorem test_D1_cls :
    runs ((dot 0).setReg vf 7) 0x00E0 (fun t => shows false [(0, 0), (31, 63)] t && t.reg vf == 7) = true := by decide
/-- Glyph 0 at column 62, row 30: both axes wrap. -/
theorem test_D3_draw_wraps :
    runs (regs12 start 0x3E 0x1E) 0xD125 (fun t => t.reg vf == 0 &&
      shows true [(30, 62), (30, 1), (31, 62), (31, 1), (0, 62), (2, 63), (2, 1)] t &&
      shows false [(30, 61), (30, 2), (31, 63), (31, 0), (0, 0), (3, 62)] t) = true := by decide
theorem test_D5_D6_collision :
    runs (dot 0x80) 0xD121 (fun t => shows false [(0, 0), (0, 1)] t && t.reg vf == 1) = true ∧
      runs (dot 0x40) 0xD121 (fun t => shows true [(0, 0), (0, 1)] t && t.reg vf == 0) = true := by decide
/-- The second draw after D5, whose display is all 0: the pixel goes from 0 to 1, which R174 calls no collision, so VF
is 0 although the sprite has a set bit (log 17). -/
theorem test_R174_second_draw_after_D5 :
    runs ((dot 0x80).setDisplay Display.clear |>.setReg vf 1) 0xD121
      (fun t => shows true [(0, 0)] t && t.reg vf == 0) = true := by decide

/-! ### Timers, keypad, host operations -/

theorem test_T1_readDt : runs (start.setDt 0x3C) 0xF307 (fun t => t.reg 3 == 0x3C && t.dt == 0x3C) = true := by decide
theorem test_T2_setDt : runs (start.setReg 3 0x3C) 0xF315 (fun t => t.dt == 0x3C && t.st == 0) = true := by decide
theorem test_T3_setSt : runs (start.setReg 3 2) 0xF318 (fun t => t.st == 2 && t.soundOut && t.dt == 0) = true := by decide
theorem test_T4_T5_tick :
    does (start.setDt 2) .tick (fun t => t.dt == 1 && t.st == 0) = true ∧
      does (start.setSt 1) .tick (fun t => t.dt == 0 && t.st == 0 && !t.soundOut) = true := by decide
theorem test_T6_T7_skp :
    runs ((start.setReg 1 5).setKey 5 true) 0xE19E (fun t => t.pc == 0x204) = true ∧
      runs (start.setReg 1 5) 0xE19E (fun t => t.pc == 0x202) = true := by decide
theorem test_T8_T9_sknp :
    runs ((start.setReg 1 5).setKey 5 true) 0xE1A1 (fun t => t.pc == 0x202) = true ∧
      runs (start.setReg 1 5) 0xE1A1 (fun t => t.pc == 0x204) = true := by decide
theorem test_T10_key_mask :
    runs ((startMask.setReg 1 0x15).setKey 5 true) 0xE19E (fun t => t.pc == 0x204 && t.draws == 0) = true := by decide
/-- T11: the key of a code out of range is the draw bit. -/
theorem test_T11_key_draw (bit : Bool) : start.key 0x15 bit = bit := by cases bit <;> decide
theorem test_T12_key_wait : runs (start.setPc 0x210) 0xF30A (fun t => t.waiting == some 3 && t.pc == 0x212) = true := by
  decide
theorem test_T13_key_down :
    does (start.setWaiting (some 3)) (.keyDown 0xB)
      (fun t => t.keys.get 0xB && t.reg 3 == 0x0B && t.waiting == none) = true ∧
    does start (.keyDown 7) (fun t => t.keys.get 7 && t.v == start.v) = true := by decide
theorem test_T15_key_up :
    does ((start.setWaiting (some 3)).setKey 2 true) (.keyUp 2)
      (fun t => !t.keys.get 2 && t.waiting == some 3) = true := by decide

/-! ### Reset -/

/-- R1, W7. -/
theorem test_R1_reset :
    does start (.reset Params.default [0x60, 0x0A, 0x70, 0x05])
      (fun t => t.fetch == 0x600A && t.memRead 0x203 == 5 && t.memRead 0 == 0xF0 && t.pc == 0x200) = true := by decide
theorem test_R5_rom_over_font :
    does start (.reset { Params.default with loadAddr := 0 } [0x01, 0x02])
      (fun t => t.memRead 0 == 1 && t.memRead 1 == 2 && t.memRead 2 == 0x90 && t.pc == 0) = true := by decide
theorem test_R6_font_base :
    does start (.reset { Params.default with fontBase := 0x050 } [])
      (fun t => t.memRead 0x50 == 0xF0 && t.memRead 0x9F == 0x80 && t.memRead 0x4F == 0 && t.memRead 0xA0 == 0) = true := by
  decide

/-! ## Witnesses: the hypotheses of each statement are met, at the bounds of its clauses -/

/-- A state a run reaches, with a word at pc. -/
abbrev ready (w : Nat) : State := State.reset.withFetchWord 16 w

/-- The invariant: ReturnPopsTheStack, CallPushesTheReturnAddress, BcdStoresThreeDigits, BlockStoreAndBlockLoad,
BlockTransferRoundTrip, StoresAreSeenByTheNextFetch, at both ends of STACK_DEPTH. -/
theorem witness_invariant : State.reset.Inv ∧ startDepth12.Inv ∧ startAdvance.Inv ∧ (ready 0xF533).Inv := by decide
theorem witness_EncodeAfterDecodeIsIdentity : decode 0x8124 = .instr (.addReg 1 2) := by decide
theorem witness_DecodeAgreesWithOpcodeMap :
    (⟨"CLS", 0x00E0, 0xFFFF⟩ : OpcodeRow) ∈ opcodeRows ∧ (⟨"CLS", 0x00E0, 0xFFFF⟩ : OpcodeRow).selects 0x00E0 = true ∧
      (⟨"CLS", 0x00E0, 0xFFFF⟩ : OpcodeRow).selects 0x00E1 = false ∧ Instr.mnemonic .cls = "CLS" := by decide
theorem witness_NoWordMatchesTwoRows :
    (⟨"SKP_Vx", 0xE09E, 0xF0FF⟩ : OpcodeRow) ∈ opcodeRows ∧ (⟨"SKP_Vx", 0xE09E, 0xF0FF⟩ : OpcodeRow).selects 0xEF9E = true := by
  decide
/-- One word of each pattern of R80, and a word outside them. -/
theorem witness_UnassignedWordsAreNoOps :
    InNoOpSpace 0x0000 ∧ InNoOpSpace 0x5001 ∧ InNoOpSpace 0x8008 ∧ InNoOpSpace 0x9001 ∧ InNoOpSpace 0xE000 ∧
      InNoOpSpace 0xF000 ∧ ¬InNoOpSpace 0x00E0 ∧ (ready 0x8008).waiting = none ∧ (ready 0x8008).fetch = 0x8008 := by
  unfold InNoOpSpace
  refine ⟨?_, ?_, ?_, ?_, ?_, ?_, ?_, ?_, ?_⟩ <;> decide
theorem witness_StepRunsTheDecodedInstruction :
    (ready 0x8124).waiting = none ∧ decode (ready 0x8124).fetch = .instr (.addReg 1 2) := by decide
/-- Also OnlyKeyDownEndsTheWait. -/
theorem witness_StepIsHeldWhileWaiting : (start.setWaiting (some 3)).waiting = some 3 := by decide
theorem witness_SelfJumpIsFixedPoint : (ready 0x1200).waiting = none ∧ (ready 0x1200).fetch = 0x1#4 ++ (ready 0x1200).pc := by
  decide
theorem witness_EveryStepKeepsTheInvariant :
    (ready 0x2300).Inv ∧ ∃ t, step (ready 0x2300) = .next t := ⟨by decide, _, rfl⟩
theorem witness_EveryScheduleKeepsTheInvariant :
    State.reset.Inv ∧ Params.default.wellFormed = true ∧
      ∃ t, HostOp.run [.reset Params.default [0xF3, 0x0A], .step, .tick, .keyDown 3, .step] State.reset = .next t :=
  ⟨by decide, by decide, of_completes (by decide)⟩
theorem witness_ParametersAreFixedAtReset :
    (∃ t, State.resetWith Params.default [0x12] = .next t) ∧ ∃ t, HostOp.run [.step, .tick, .keyUp 3] State.reset = .next t :=
  ⟨⟨_, if_pos (by decide)⟩, of_completes (by decide)⟩
theorem witness_FetchWordIsWhatTheNextStepRuns :
    State.reset.Inv ∧ decodeTableWord 16 0xF533 = some (.ldBVx 5) := by decide
/-- Fx33 at its first and last byte, Fx55 at its last. -/
theorem witness_OnlyStoresWriteMemory :
    does (((ready 0xF533).setReg 5 0xFF).setI 0x300) .step (fun t => t.memRead 0x300 != 0 && t.memRead 0x302 != 0) = true ∧
      does (((ready 0xF155).setReg 1 9).setI 0x300) .step (fun t => t.memRead 0x301 != 0) = true := by decide
theorem witness_OnlyClearAndDrawChangeTheDisplay :
    does ((dot 0).withFetchWord 16 0x00E0) .step (fun t => t.display.pixel 0 0 != (dot 0).display.pixel 0 0) = true ∧
      does ((dot 0x80).withFetchWord 16 0xD121) .step
        (fun t => t.display.pixel 0 0 != (dot 0x80).display.pixel 0 0) = true := by decide
theorem witness_OnlyCallAndReturnReachTheStack :
    does (ready 0x2300) .step (fun t => t.stack != start.stack && t.sp != 0) = true ∧
      does (ready 0x00EE) .step (fun t => t.sp != 0) = true := by decide
theorem witness_KeypadChangesOnlyByHostOrKeyWait :
    does start (.keyDown 3) (fun t => t.keys != start.keys) = true ∧
      does (start.setKey 3 true) (.keyUp 3) (fun t => t.keys != (start.setKey 3 true).keys) = true ∧
      does (ready 0xF30A) .step (fun t => t.waiting != none) = true ∧
      does (start.setWaiting (some 3)) (.keyDown 3) (fun t => t.waiting != some 3) = true := by decide
theorem witness_RegisterPortsAreAsListed :
    (1 : Nibble) ∉ Instr.reads Params.default (.ldReg 1 2) ∧ (1 : Nibble) ∈ Instr.writes (.ldReg 1 2) ∧
      (3 : Nibble) ∉ Instr.reads Params.default (.ldReg 1 2) ∧ (3 : Nibble) ∉ Instr.writes (.ldReg 1 2) := by decide
theorem witness_VfIsWrittenAsListed :
    flagCondition (regs12 start 0xFF 1) (.addReg 1 2) = some (0xFF + 1 > 255) ∧
      flagCondition (regs12 start 0xFF 0) (.addReg 1 2) = some (0xFF + 0 > 255) ∧
      flagCondition start (.ldImm 1 2) = none ∧ vf ∉ Instr.writes (.ldImm 1 2) :=
  ⟨rfl, rfl, rfl, by decide⟩
theorem witness_SkipsFollowTheComparison : (1 : Nibble) ≠ 0 ∧ (0xF : Nibble) ≠ 0 := by decide
theorem witness_ResetStateIsTheEmptyLoad : 80 ≤ 80 ∧ 80 < 4096 ∧ 80 ≤ 4095 ∧ 4095 < 4096 := by decide
theorem witness_NestedCallsReturnToTheirCallers :
    State.reset.Inv ∧ ([] : List (Addr × Addr)).length ≤ State.reset.cfg.stackDepth ∧
      (List.replicate 16 ((0x202 : Addr), (0x300 : Addr))).length = State.reset.cfg.stackDepth := by decide
/-- Also AddWithCarry and SubtractWithNoBorrowFlag (x other than 0xF). -/
theorem witness_ShiftByOne :
    (start.cfg.shiftSrc = .vy → start.reg 2 = start.reg 2) ∧ (start.cfg.shiftSrc = .vx → start.reg 2 = start.reg 1) ∧
      start.cfg.shiftSrc = .vy ∧ startVx.cfg.shiftSrc = .vx ∧ (0xE : Nibble) ≠ vf := by decide
/-- r at and above x, both advance modes (BlockStoreAndBlockLoad, BlockTransferRoundTrip). -/
theorem witness_BlockStoreAndBlockLoad :
    start.Inv ∧ start.cfg.lsAdvance = .unchanged ∧ startAdvance.Inv ∧ startAdvance.cfg.lsAdvance = .advance ∧
      (3 : Nibble) ≤ 3 ∧ ¬(4 : Nibble) ≤ 3 := by decide
/-- The state after the store has the same I under UNCHANGED, so it can be the one that loads. -/
theorem witness_BlockTransferRoundTrip :
    start.Inv ∧ ∃ t, exec (.ldMemVx 3) start = .next t ∧ t.i = start.i := ⟨by decide, _, rfl, rfl⟩
/-- A covered and an uncovered pixel; a draw that collides and one that does not. -/
theorem witness_DrawXorsTheSprite :
    SpriteCovers (fun k => (dot 0x80).memRead (((dot 0x80).i.toNat + k) % 4096)) 0 0 1 0 0 ∧
      ¬SpriteCovers (fun _ => 0) 0 0 1 0 0 ∧ (dot 0x80).display.pixel 0 0 = true ∧ (dot 0x80).display.pixel 0 1 = false := by
  refine ⟨⟨0, 0, by decide⟩, ?_, by decide, by decide⟩
  rintro ⟨_, _, _, _, h, _⟩
  simp at h
theorem witness_SpriteBitOrderDoesNotMatter : (spriteBits 15).reverse.Perm (spriteBits 15) := List.reverse_perm _
/-- The coordinates survive the first draw; also SecondDrawCollidesForEverySetBit, with a set bit and with none. -/
theorem witness_DrawTwiceRestoresTheDisplay :
    runs (dot 0x80) 0xD121 (fun t => t.reg 1 == (dot 0x80).reg 1 && t.reg 2 == (dot 0x80).reg 2) = true ∧
      (dot 0x80).memRead 0x300 ≠ 0 ∧ (dot 0).memRead 0x300 = 0 := by decide
theorem witness_PackedBlitterAgrees : Shows (Vector.replicate 256 0) Display.clear := by
  intro r c
  simp [PackedDisplay.pixel, Vector.get_eq_getElem]
/-- The three hypotheses of KeySkipsFollowTheKey on the key value `p`. -/
abbrev keyHypotheses (s : State) (p : Bool) : Prop :=
  (∀ h : (s.reg 1).toNat < 16, p = s.keys.get ⟨(s.reg 1).toNat, h⟩) ∧
    ((s.reg 1).toNat ≥ 16 → s.cfg.keyOor = .mask → p = s.keys.get ⟨(s.reg 1).toNat % 16, Nat.mod_lt _ (by decide)⟩) ∧
    ((s.reg 1).toNat ≥ 16 → s.cfg.keyOor = .draw → p = Config.keybit s.draws)

/-- The last code in range, and the first out of range under MASK and under DRAW. -/
theorem witness_KeySkipsFollowTheKey :
    keyHypotheses ((start.setReg 1 15).setKey 15 true) true ∧ keyHypotheses ((startMask.setReg 1 16).setKey 0 true) true ∧
      keyHypotheses (start.setReg 1 16) (Config.keybit (start.setReg 1 16).draws) := by
  refine ⟨by decide, by decide, fun h => absurd h (by decide), fun _ h => absurd h (by decide), fun _ _ => rfl⟩
theorem witness_KeyDownAndKeyUp :
    (start.setWaiting (some 0xF)).waiting = some 0xF ∧ start.waiting = none := by decide
theorem witness_OnlyKeyDownEndsTheWait :
    (∀ k, HostOp.keyDown k ∉ [HostOp.tick, HostOp.keyUp 3]) ∧ (∀ cfg rom, HostOp.reset cfg rom ∉ [HostOp.tick, HostOp.keyUp 3]) ∧
      HostOp.step ∉ [HostOp.tick, HostOp.keyUp 3] ∧ HostOp.step ∈ [HostOp.tick, HostOp.step] := by simp
/-- A ROM one byte too long, one that just fits, ROM bytes over the font, a font byte and a byte of neither. -/
theorem witness_ResetSetsEveryElement :
    (List.replicate 3585 (0 : Byte)).length > 4096 - Params.default.loadAddr.toNat ∧
      (List.replicate 3584 (0 : Byte)).length ≤ 4096 - Params.default.loadAddr.toNat ∧
      (79 : Nat) = (Params.default.fontBase.toNat + 79) % 4096 ∧
      ∀ k, k < 80 → 80 ≠ (Params.default.fontBase.toNat + k) % 4096 := by
  rw [List.length_replicate, List.length_replicate]
  refine ⟨by decide, by decide, by decide, fun k hk => ?_⟩
  simp only [show Params.default.fontBase.toNat = 0 by decide]
  omega
/-- The stored byte is the fetched byte at pc, and at pc + 1. -/
theorem witness_StoresAreSeenByTheNextFetch :
    (start.setI 0x200).Inv ∧ (start.setI 0x200).pc.toNat = ((start.setI 0x200).i.toNat + 0) % 4096 ∧
      ((start.setI 0x200).pc.toNat + 1) % 4096 = ((start.setI 0x200).i.toNat + 1) % 4096 := by decide
theorem witness_CanonicalMemoryIsUnique :
    Memory.wf Params.default [(0x300, 1)] = true ∧ ((start.memWrite 0x301 2).memWrite 0x300 1).mem.wf Params.default = true := by
  decide

end Sys2Proof.Tests
end

section
/-! PROOFS. The family of spec/10_state.md: VF as a flag (R22), and Reset (R36, R240 to R245). -/
namespace Sys2Proof.Machine

/-! ## The collision of a draw (R173, R174) -/

theorem spriteBits_nodup (n : Nat) : (spriteBits n).Nodup :=
  List.nodup_range.product List.nodup_range

/-- Two bits of a sprite of at most 32 rows never land on the same pixel (R175). -/
theorem pixelOf_injOn {n : Nat} (hn : n ≤ 32) (cx cy : Byte) :
    ∀ a ∈ spriteBits n, ∀ b ∈ spriteBits n, pixelOf cx cy a = pixelOf cx cy b → a = b := by
  rintro ⟨r, c⟩ ha ⟨r', c'⟩ hb h
  obtain ⟨hr, hc⟩ := mem_spriteBits.1 ha
  obtain ⟨hr', hc'⟩ := mem_spriteBits.1 hb
  obtain ⟨hrow, hcol⟩ := Prod.mk.inj h
  have hrow : (cy.toNat + r) % 32 = (cy.toNat + r') % 32 := congrArg Fin.val hrow
  have hcol : (cx.toNat + c) % 64 = (cx.toNat + c') % 64 := congrArg Fin.val hcol
  rw [Prod.mk.injEq]
  omega

theorem spriteBits_pixels_nodup {n : Nat} (hn : n ≤ 32) (cx cy : Byte) :
    ((spriteBits n).map (pixelOf cx cy)).Nodup :=
  (spriteBits_nodup n).map_on (pixelOf_injOn hn cx cy)

/-- A sprite bit leaves every pixel but its own alone (R173). -/
theorem blitPixel_pixel_of_ne {cx cy b : Byte} {bit bit' : Nat × Nat} (p : Blit)
    (h : pixelOf cx cy bit' ≠ pixelOf cx cy bit) :
    (blitPixel cx cy b bit.1 bit.2 p).display.pixel (pixelRow cy bit'.1) (pixelCol cx bit'.2) =
      p.display.pixel (pixelRow cy bit'.1) (pixelCol cx bit'.2) := by
  rw [blitPixel_pixel, if_neg]
  rintro ⟨-, hrow, hcol⟩
  exact h (Prod.ext hrow hcol)

/-- Over bits that land on distinct pixels, a collision is a set bit whose pixel was on before the draw: no bit sees
another's toggle (R174). -/
theorem foldl_blitPixel_hit (sprite : Nat → Byte) (cx cy : Byte) (bits : List (Nat × Nat)) (p : Blit)
    (hdistinct : (bits.map (pixelOf cx cy)).Nodup) :
    (bits.foldl (fun q bit => blitPixel cx cy (sprite bit.1) bit.1 bit.2 q) p).hit = true ↔
      p.hit = true ∨ ∃ bit ∈ bits, spriteBit (sprite bit.1) bit.2 = true ∧
        p.display.pixel (pixelRow cy bit.1) (pixelCol cx bit.2) = true := by
  induction bits generalizing p with
  | nil => simp
  | cons bit bits ih =>
    obtain ⟨hnew, hrest⟩ := List.nodup_cons.1 hdistinct
    have hkept : ∀ bit' ∈ bits, pixelOf cx cy bit' ≠ pixelOf cx cy bit := fun bit' hmem heq =>
      hnew (heq ▸ List.mem_map_of_mem hmem)
    rw [List.foldl_cons, ih _ hrest, blitPixel_hit, List.exists_mem_cons_iff, ← or_assoc]
    refine or_congr (by simp) (exists_congr fun bit' => and_congr_right fun hmem => ?_)
    rw [blitPixel_pixel_of_ne p (hkept bit' hmem)]

/-- The pixels a sprite covers are those its set bits land on (R172, R175). -/
theorem spriteCovers_iff {sprite : Nat → Byte} {cx cy : Byte} {n : Nat} {r : Fin 32} {c : Fin 64} :
    SpriteCovers sprite cx cy n r c ↔
      ∃ bit ∈ spriteBits n, spriteBit (sprite bit.1) bit.2 = true ∧ pixelRow cy bit.1 = r ∧ pixelCol cx bit.2 = c := by
  simp [SpriteCovers, Prod.exists, mem_spriteBits, spriteBit, pixelRow, pixelCol, Fin.ext_iff, and_assoc]

/-- The blitter reports a collision exactly where some covered pixel was on before the draw (R173, R174). -/
theorem blit_hit_iff (s : State) (cx cy : Byte) {n : Nat} (hn : n ≤ 32) :
    (s.blit cx cy n).hit = true ↔ SpriteHits s cx cy n := by
  rw [State.blit, blitRows_eq_foldl, foldl_blitPixel_hit _ _ _ _ _ (spriteBits_pixels_nodup hn cx cy)]
  simp only [SpriteHits, spriteCovers_iff, Bool.false_eq_true, false_or]
  constructor
  · rintro ⟨bit, hmem, hset, hon⟩
    exact ⟨_, _, ⟨bit, hmem, hset, rfl, rfl⟩, hon⟩
  · rintro ⟨_, _, ⟨bit, hmem, hset, rfl, rfl⟩, hon⟩
    exact ⟨bit, hmem, hset, hon⟩

/-! ## The flag computations against the table of R22 -/

theorem addCarry_iff (a b : Byte) : addCarry a b = true ↔ a.toNat + b.toNat > 255 := by simp [addCarry]

theorem subNoBorrow_iff (a b : Byte) : subNoBorrow a b = true ↔ a.toNat ≥ b.toNat := by simp [subNoBorrow]

theorem shrOut_iff (b : Byte) : shrOut b = true ↔ b.toNat % 2 = 1 := by
  simp [shrOut, BitVec.getLsbD, Nat.testBit_zero]

theorem shlOut_iff (b : Byte) : shlOut b = true ↔ b.toNat / 128 = 1 := by
  have := b.isLt
  simp only [shlOut, BitVec.getLsbD, Nat.testBit_eq_decide_div_mod_eq, decide_eq_true_iff]
  omega

theorem addAddrOverflow_iff (a : Addr) (v : Byte) : addAddrOverflow a v = true ↔ a.toNat + v.toNat > 0xFFF := by
  simp [addAddrOverflow]

/-! ## What a body writes to the V registers -/

@[simp] theorem State.reg_vf_setFlag (s : State) (c : Bool) : (s.setFlag c).reg vf = flagByte c := by
  simp [State.reg_setFlag]

@[simp] theorem State.reg_vf_setRegFlag (s : State) (x : Nibble) (b : Byte) (c : Bool) :
    (s.setRegFlag x b c).reg vf = flagByte c := by
  simp [State.reg_setRegFlag]

/-- An instruction with a row in the table of R22 leaves in VF the truth of its condition. -/
theorem exec_vf_of_flagCondition {i : Instr} {s : State} {p : Prop} (h : flagCondition s i = some p) :
    ∃ (t : State) (c : Bool), exec i s = .next t ∧ t.reg vf = flagByte c ∧ (c = true ↔ p) := by
  match i, h with
  | .addReg _ _, rfl => exact ⟨_, _, rfl, State.reg_vf_setRegFlag .., addCarry_iff ..⟩
  | .sub _ _, rfl => exact ⟨_, _, rfl, State.reg_vf_setRegFlag .., subNoBorrow_iff ..⟩
  | .shr _ _, rfl => exact ⟨_, _, rfl, State.reg_vf_setRegFlag .., shrOut_iff ..⟩
  | .subn _ _, rfl => exact ⟨_, _, rfl, State.reg_vf_setRegFlag .., subNoBorrow_iff ..⟩
  | .shl _ _, rfl => exact ⟨_, _, rfl, State.reg_vf_setRegFlag .., shlOut_iff ..⟩
  | .addIVx _, rfl => exact ⟨_, _, rfl, State.reg_vf_setFlag .., addAddrOverflow_iff ..⟩
  | .drw _ _ n, rfl => exact ⟨_, _, rfl, State.reg_vf_setFlag .., blit_hit_iff s _ _ (by omega)⟩

/-- A body leaves every register outside the "writes" column of R23 unchanged. -/
theorem exec_regsUnchangedBut_writes {i : Instr} {s t : State} (h : exec i s = .next t) :
    RegsUnchangedBut i.writes s t := by
  intro r hr
  cases i <;> cases h
  case ldImm | addImm | ldReg | or | and | xor | rnd | ldVxDt =>
    exact State.reg_setReg_of_ne _ _ (List.ne_of_not_mem_cons hr)
  case addReg | sub | shr | subn | shl =>
    obtain ⟨hx, hvf⟩ : r ≠ _ ∧ r ≠ vf := by simpa [Instr.writes] using hr
    simp [State.reg_setRegFlag, hx, hvf]
  case drw | addIVx =>
    have hvf : r ≠ vf := List.ne_of_not_mem_cons hr
    simp [State.reg_setFlag, hvf]
  case ldVxMem x =>
    have hx : ¬r ≤ x := by simpa [Instr.writes] using hr
    rw [State.reg_setI, State.reg_loadRegs _ (by omega), if_neg (Nat.not_lt.2 (Fin.not_le.1 hx))]
  case cls | ret | jp | call | seImm | sneImm | seReg | sneReg | ldI | jpV0 | skp | sknp | ldVxK | ldDtVx | ldStVx
    | ldFVx | ldBVx | ldMemVx => simp

/-- Settles O22: the flag-writing bodies by the table of R22, every other body by the "writes" column of R23. -/
theorem vfIsWrittenAsListed : Obligations.VfIsWrittenAsListed := by
  intro i s
  cases hflag : flagCondition s i with
  | some p =>
    obtain ⟨t, c, ht, hvf, hc⟩ := exec_vf_of_flagCondition hflag
    refine ⟨t, ht, fun q hq => ?_, nofun⟩
    cases hq
    exact ⟨fun hp => by simp [hvf, hc.2 hp], fun hp => by simp [hvf, mt hc.1 hp]⟩
  | none =>
    obtain ⟨t, ht⟩ := exec_next i s
    exact ⟨t, ht, nofun, fun _ hvf => exec_regsUnchangedBut_writes ht vf hvf⟩

/-! ## Reset (R36, R240, R243 to R245) -/

/-- Reset places the ROM over the initial state where the ROM fits (R243). -/
theorem resetWith_of_le {cfg : Params} {rom : List Byte} (h : rom.length ≤ memSize - cfg.loadAddr.toNat) :
    State.resetWith cfg rom = .next (State.loadBytes rom cfg.loadAddr.toNat (State.initial cfg)) := by
  simp [State.resetWith, romFits, h]

/-- Reset refuses a ROM that does not fit (R245). -/
theorem resetWith_of_gt {cfg : Params} {rom : List Byte} (h : rom.length > memSize - cfg.loadAddr.toNat) :
    State.resetWith cfg rom = .refused .romTooLong := by
  simp [State.resetWith, romFits, h]

/-- Before the ROM is placed, memory is its reset content (R240). -/
theorem State.memRead_initial (cfg : Params) (a : Nat) :
    (State.initial cfg).memRead a = cfg.initByte (a % memSize) := rfl

/-- The reset content of the font area is the font, past 0xFFF from 0 on (R36, R240). -/
theorem initByte_font (cfg : Params) {k : Nat} (hk : k < 80) :
    cfg.initByte ((cfg.fontBase.toNat + k) % memSize) = cfg.fontData[k] := by
  have hoff : ((cfg.fontBase.toNat + k) % memSize + memSize - cfg.fontBase.toNat) % memSize = k := by
    have := cfg.fontBase.isLt
    simp only [memSize]
    omega
  simp only [Params.initByte, hoff, hk, dif_pos]

/-- The reset content outside the font area is 0 under MEM_INIT = ZERO (R36). -/
theorem initByte_zero {cfg : Params} {a : Nat} (ha : a < memSize)
    (hfont : ∀ k, k < 80 → a ≠ (cfg.fontBase.toNat + k) % memSize) (hzero : cfg.memInit = .zero) :
    cfg.initByte a = 0 := by
  have hoff : ¬(a + memSize - cfg.fontBase.toNat) % memSize < 80 := fun hlt => by
    have := cfg.fontBase.isLt
    have := hfont _ hlt
    simp only [memSize] at *
    omega
  simp only [Params.initByte, hoff, dif_neg, not_false_eq_true, hzero]

theorem State.reg_initial (cfg : Params) (x : Nibble) : (State.initial cfg).reg x = 0 := by
  simp [State.reg, State.initial, Vector.get_eq_getElem]

theorem State.keys_initial (cfg : Params) (k : Nibble) : (State.initial cfg).keys.get k = false := by
  simp [State.initial, Vector.get_eq_getElem]

/-- Every slot is 0 in the initial state, one that does not exist too (R36, log 12). -/
theorem State.slot_initial (cfg : Params) (j : Nat) : (State.initial cfg).slot j = 0 := by
  simp [State.slot, State.initial]

@[simp] theorem State.slot_loadBytes (bs : List Byte) (a : Nat) (s : State) (j : Nat) :
    (State.loadBytes bs a s).slot j = s.slot j := by
  simp [State.slot]

/-- A byte outside a ROM that fits keeps its reset content (R240, R243). -/
theorem memRead_reset_outside {cfg : Params} {rom : List Byte} (hfit : rom.length ≤ memSize - cfg.loadAddr.toNat)
    {a : Nat} (ha : a < memSize) (hrom : ∀ j, j < rom.length → a ≠ cfg.loadAddr.toNat + j) :
    (State.loadBytes rom cfg.loadAddr.toNat (State.initial cfg)).memRead a = cfg.initByte a := by
  rw [State.memRead_loadBytes_outside, State.memRead_initial, Nat.mod_eq_of_lt ha]
  intro j hj
  have := hrom j hj
  simp only [memSize] at *
  omega

/-- Settles O53: the elements from the initial state, which placing the ROM leaves alone, and memory as the ROM over
the font over MEM_INIT. -/
theorem resetSetsEveryElement : Obligations.ResetSetsEveryElement := by
  refine fun cfg rom => ⟨fun hlong t ht => ?_, fun hfit => ⟨_, resetWith_of_le hfit, ?_⟩⟩
  · rw [resetWith_of_gt hlong] at ht
    cases ht
  have hmem : cfg.loadAddr.toNat + rom.length ≤ memSize := by
    have := cfg.loadAddr.isLt
    simp only [memSize]
    omega
  refine ⟨State.loadBytes_cfg .., fun x => ?_, State.loadBytes_i .., State.loadBytes_sp .., ?_, fun j => ?_,
    State.loadBytes_dt .., State.loadBytes_st .., fun k => ?_, State.loadBytes_waiting .., fun r c => ?_,
    State.loadBytes_pc .., fun j hj => ?_, fun a ha hrom => ⟨?_, ?_⟩⟩
  · rw [State.reg_loadBytes, State.reg_initial]
  · rw [State.loadBytes_stack]
    exact List.length_replicate
  · rw [State.slot_loadBytes, State.slot_initial]
  · rw [State.loadBytes_keys, State.keys_initial]
  · rw [State.loadBytes_display]
    exact Display.pixel_clear r c
  · exact State.memRead_loadBytes rom Memory.wf_nil hmem hj
  · rintro k hk rfl
    rw [memRead_reset_outside hfit ha hrom]
    exact initByte_font cfg hk
  · intro hfont hzero
    rw [memRead_reset_outside hfit ha hrom]
    exact initByte_zero ha hfont hzero

end Sys2Proof.Machine
end

section
/-! PROOFS. Reading memory (spec/20_memory.md). -/
namespace Sys2Proof.Machine

/-- As numbers, the high byte of a word counts 256 times (R53). -/
theorem opcodeOfBytes_toNat (hi lo : Byte) : (opcodeOfBytes hi lo).toNat = hi.toNat * 256 + lo.toNat := by
  rw [opcodeOfBytes, BitVec.toNat_append, ← Nat.shiftLeft_add_eq_or_of_lt lo.isLt, Nat.shiftLeft_eq]

/-- Settles O9: the fetched word is the two bytes, high byte first, and `MemRead` takes its address mod 4096, so the
low byte at pc = 0xFFF is the one at 0x000 (R53). -/
theorem fetchIsBigEndianAndWraps : Obligations.FetchIsBigEndianAndWraps := fun s =>
  calc s.fetch.toNat
    _ = (s.memRead s.pc.toNat).toNat * 256 + (s.memRead (s.pc.toNat + 1)).toNat := opcodeOfBytes_toNat ..
    _ = (s.memRead s.pc.toNat).toNat * 256 + (s.memRead ((s.pc.toNat + 1) % 4096)).toNat := by
      rw [State.memRead_mod]

end Sys2Proof.Machine
end

section
/-! PROOFS. The decode function against the opcode map (spec/30_encoding.md R75 to R77). -/
namespace Sys2Proof.Laws.EncodesInRow

theorem encodesInRow : ∀ i : Instr, Statement i
  | .cls => cls
  | .ret => ret
  | .jp nnn => jp nnn
  | .call nnn => call nnn
  | .seImm x kk => seImm x kk
  | .sneImm x kk => sneImm x kk
  | .seReg x y => seReg x y
  | .ldImm x kk => ldImm x kk
  | .addImm x kk => addImm x kk
  | .ldReg x y => ldReg x y
  | .or x y => or x y
  | .and x y => and x y
  | .xor x y => xor x y
  | .addReg x y => addReg x y
  | .sub x y => sub x y
  | .shr x y => shr x y
  | .subn x y => subn x y
  | .shl x y => shl x y
  | .sneReg x y => sneReg x y
  | .ldI nnn => ldI nnn
  | .jpV0 nnn => jpV0 nnn
  | .rnd x kk => rnd x kk
  | .drw x y n => drw x y n
  | .skp x => skp x
  | .sknp x => sknp x
  | .ldVxDt x => ldVxDt x
  | .ldVxK x => ldVxK x
  | .ldDtVx x => ldDtVx x
  | .ldStVx x => ldStVx x
  | .addIVx x => addIVx x
  | .ldFVx x => ldFVx x
  | .ldBVx x => ldBVx x
  | .ldMemVx x => ldMemVx x
  | .ldVxMem x => ldVxMem x

end Sys2Proof.Laws.EncodesInRow

namespace Sys2Proof

/-! ## A decoded word is its instruction's encoding (R74) -/

theorem layoutAddr_of_u {o : Opcode} {u : BitVec 4} (hu : o.u.toNat = u.toNat) : layoutAddr u o.nnn = o :=
  BitVec.eq_of_toNat_eq hu ▸ (eq_layoutAddr o).symm

theorem layoutRegByte_of_u {o : Opcode} {u : BitVec 4} (hu : o.u.toNat = u.toNat) : layoutRegByte u o.x o.kk = o :=
  BitVec.eq_of_toNat_eq hu ▸ (eq_layoutRegByte o).symm

theorem layoutRegByte_of_subop {o : Opcode} {u : BitVec 4} {kk : Byte} (hu : o.u.toNat = u.toNat)
    (hkk : o.kk.toNat = kk.toNat) : layoutRegByte u o.x kk = o :=
  BitVec.eq_of_toNat_eq hkk ▸ layoutRegByte_of_u hu

theorem layoutRegReg_of_u {o : Opcode} {u : BitVec 4} (hu : o.u.toNat = u.toNat) : layoutRegReg u o.x o.y o.n = o :=
  BitVec.eq_of_toNat_eq hu ▸ (eq_layoutRegReg o).symm

theorem layoutRegReg_of_selector {o : Opcode} {u : BitVec 4} {n : Nibble} (hu : o.u.toNat = u.toNat) (hn : o.n = n) :
    layoutRegReg u o.x o.y n = o :=
  hn ▸ layoutRegReg_of_u hu

theorem encode_of_decodeGroup8 {o : Opcode} {i : Instr} (hu : o.u.toNat = 0x8) (h : decodeGroup8 o = .instr i) :
    encode i = o := by
  unfold decodeGroup8 at h
  split at h <;> cases h <;> exact layoutRegReg_of_selector hu (Fin.ext ‹_›)

theorem encode_of_decodeGroupE {o : Opcode} {i : Instr} (hu : o.u.toNat = 0xE) (h : decodeGroupE o = .instr i) :
    encode i = o := by
  unfold decodeGroupE at h
  split at h <;> cases h <;> exact layoutRegByte_of_subop hu ‹_›

theorem encode_of_decodeGroupF {o : Opcode} {i : Instr} (hu : o.u.toNat = 0xF) (h : decodeGroupF o = .instr i) :
    encode i = o := by
  unfold decodeGroupF at h
  split at h <;> cases h <;> exact layoutRegByte_of_subop hu ‹_›

/-- The decode function drops no bit: each arm of the first-level select keeps the word's fields under the layout of
its group. -/
theorem encode_of_decode {o : Opcode} {i : Instr} (h : decode o = .instr i) : encode i = o := by
  unfold decode at h
  split at h
  case h_1 =>
    split_ifs at h with hcls hret <;> cases h
    · exact hcls.symm
    · exact hret.symm
  case h_2 hu | h_3 hu | h_11 hu | h_12 hu => cases h; exact layoutAddr_of_u hu
  case h_4 hu | h_5 hu | h_7 hu | h_8 hu | h_13 hu => cases h; exact layoutRegByte_of_u hu
  case h_6 hu | h_10 hu => split_ifs at h with hn; cases h; exact layoutRegReg_of_selector hu hn
  case h_9 hu => exact encode_of_decodeGroup8 hu h
  case h_14 hu => cases h; exact layoutRegReg_of_u hu
  case h_15 hu => exact encode_of_decodeGroupE hu h
  case h_16 =>
    have hlt := o.u.isLt
    exact encode_of_decodeGroupF (by grind) h

/-! ## The row a word decodes to depends on its selector fields alone (R76) -/

/-- The mnemonic of the row that a word decodes to, `none` for a no-op word. -/
def Decoded.mnemonic : Decoded → Option String
  | .instr i => some i.mnemonic
  | .noop _ => none

theorem Decoded.mnemonic_eq_some {d : Decoded} {m : String} :
    d.mnemonic = some m ↔ ∃ i, d = .instr i ∧ i.mnemonic = m := by
  cases d <;> simp [Decoded.mnemonic]

theorem decodeGroup8_mnemonic_congr {o p : Opcode} (hn : o.n = p.n) :
    (decodeGroup8 o).mnemonic = (decodeGroup8 p).mnemonic := by
  unfold decodeGroup8
  rw [hn]
  split <;> rfl

theorem decodeGroupE_mnemonic_congr {o p : Opcode} (hkk : o.kk = p.kk) :
    (decodeGroupE o).mnemonic = (decodeGroupE p).mnemonic := by
  unfold decodeGroupE
  rw [hkk]
  split <;> rfl

theorem decodeGroupF_mnemonic_congr {o p : Opcode} (hkk : o.kk = p.kk) :
    (decodeGroupF o).mnemonic = (decodeGroupF p).mnemonic := by
  unfold decodeGroupF
  rw [hkk]
  split <;> rfl

/-- Words of one group that agree in the group's selector (the whole word in group 0, `n` in groups 5, 8 and 9, `kk`
in groups E and F) decode to the same row. -/
theorem decode_mnemonic_congr {o p : Opcode} (hu : o.u = p.u) (hword : p.u.toNat = 0x0 → o = p)
    (hn : p.u.toNat ∈ [0x5, 0x8, 0x9] → o.n = p.n) (hkk : 0xE ≤ p.u.toNat → o.kk = p.kk) :
    (decode o).mnemonic = (decode p).mnemonic := by
  unfold decode
  rw [hu]
  split
  case h_1 hp => rw [hword hp]
  case h_6 hp | h_10 hp =>
    rw [hn (by simp [hp])]
    split <;> rfl
  case h_9 hp => exact decodeGroup8_mnemonic_congr (hn (by simp [hp]))
  case h_15 hp => exact decodeGroupE_mnemonic_congr (hkk hp.ge)
  case h_16 => exact decodeGroupF_mnemonic_congr (hkk (by grind))
  all_goals rfl

/-! ## The rows of the opcode map (R75) -/

theorem OpcodeRow.selects_iff {row : OpcodeRow} {o : Opcode} :
    row.selects o = true ↔ o &&& row.mask = row.pattern :=
  beq_iff_eq

/-- Where the mask holds every bit of a field, a selected word has the pattern's field. -/
theorem OpcodeRow.extract_of_selects {row : OpcodeRow} {o : Opcode} (h : row.selects o = true) {p w : Nat}
    (hm : row.mask.extractLsb' p w = BitVec.allOnes w) : o.extractLsb' p w = row.pattern.extractLsb' p w := by
  rw [← selects_iff.1 h, BitVec.extractLsb'_and, hm, BitVec.and_allOnes]

/-- The mask of a row holds the selector of the row's group. -/
theorem opcodeRows_mask_holds_selector : ∀ row ∈ opcodeRows,
    row.mask.extractLsb' 12 4 = BitVec.allOnes 4 ∧
      (row.pattern.u.toNat = 0x0 → row.mask = BitVec.allOnes 16) ∧
      (row.pattern.u.toNat ∈ [0x5, 0x8, 0x9] → row.mask.extractLsb' 0 4 = BitVec.allOnes 4) ∧
      (0xE ≤ row.pattern.u.toNat → row.mask.extractLsb' 0 8 = BitVec.allOnes 8) := by
  decide

theorem opcodeRows_decode_pattern : ∀ row ∈ opcodeRows, (decode row.pattern).mnemonic = some row.mnemonic := by
  decide

theorem opcodeRows_mnemonic_nodup : (opcodeRows.map OpcodeRow.mnemonic).Nodup := by
  decide

/-- Rows whose patterns agree on the bits of both masks are one row. -/
theorem opcodeRows_eq_of_common_bits : ∀ r₁ ∈ opcodeRows, ∀ r₂ ∈ opcodeRows,
    r₁.pattern &&& r₂.mask = r₂.pattern &&& r₁.mask → r₁ = r₂ := by
  decide

/-- A selected word agrees with the row's pattern in the selector of its group, so it decodes to the row that the
pattern decodes to. -/
theorem decode_mnemonic_of_selects {row : OpcodeRow} (hrow : row ∈ opcodeRows) {o : Opcode}
    (h : row.selects o = true) : (decode o).mnemonic = some row.mnemonic := by
  obtain ⟨hu, hword, hn, hkk⟩ := opcodeRows_mask_holds_selector row hrow
  rw [← opcodeRows_decode_pattern row hrow]
  refine decode_mnemonic_congr (row.extract_of_selects h hu) (fun hp => ?_)
    (fun hp => congrArg BitVec.toFin (row.extract_of_selects h (hn hp)))
    (fun hp => row.extract_of_selects h (hkk hp))
  rw [← OpcodeRow.selects_iff.1 h, hword hp, BitVec.and_allOnes]

/-- The row of a decoded instruction's mnemonic selects the word, which is the instruction's encoding. -/
theorem selects_of_decode {row : OpcodeRow} (hrow : row ∈ opcodeRows) {o : Opcode} {i : Instr}
    (hi : decode o = .instr i) (hm : i.mnemonic = row.mnemonic) : row.selects o = true := by
  obtain ⟨row', hrow', hm', hsel⟩ := Laws.EncodesInRow.encodesInRow i
  have heq : row' = row := List.inj_on_of_nodup_map opcodeRows_mnemonic_nodup hrow' hrow (hm'.trans hm)
  rwa [encode_of_decode hi, heq] at hsel

/-- Settles O3: a selected word decodes as the row's pattern does, and a decoded word is the instruction's encoding,
which lies in its row. -/
theorem decodeAgreesWithOpcodeMap : Obligations.DecodeAgreesWithOpcodeMap := fun _ _ hrow =>
  ⟨fun h => Decoded.mnemonic_eq_some.1 (decode_mnemonic_of_selects hrow h),
    fun ⟨_, hi, hm⟩ => selects_of_decode hrow hi hm⟩

/-- Settles O4: the patterns of two rows that select one word agree on the bits of both masks. -/
theorem noWordMatchesTwoRows : Obligations.NoWordMatchesTwoRows := by
  intro o r₁ hr₁ r₂ hr₂ h₁ h₂
  refine opcodeRows_eq_of_common_bits r₁ hr₁ r₂ hr₂ ?_
  calc r₁.pattern &&& r₂.mask
    _ = o &&& r₁.mask &&& r₂.mask := by rw [OpcodeRow.selects_iff.1 h₁]
    _ = o &&& r₂.mask &&& r₁.mask := by ac_rfl
    _ = r₂.pattern &&& r₁.mask := by rw [OpcodeRow.selects_iff.1 h₂]

end Sys2Proof
end

section
/-! PROOFS. The execution cycle (spec/40_execution_cycle.md): the hold, the advance of pc and the no-op words. -/
namespace Sys2Proof

/-! ## The no-op words (R80) -/

theorem Decoded.mnemonic_eq_none {d : Decoded} : d.mnemonic = none ↔ ∃ g, d = .noop g := by
  cases d <;> simp [Decoded.mnemonic]

/-- The words of no row are those that decode to no instruction: an instruction's encoding lies in its row, and a
selected word decodes to an instruction of the row (R75). -/
theorem no_row_selects_iff {o : Opcode} :
    (∀ row ∈ opcodeRows, row.selects o = false) ↔ ∃ g, decode o = .noop g := by
  constructor
  · intro hnone
    cases hd : decode o with
    | noop g => exact ⟨g, rfl⟩
    | instr i =>
      obtain ⟨row, hrow, -, hsel⟩ := Laws.EncodesInRow.encodesInRow i
      rw [encode_of_decode hd, hnone row hrow] at hsel
      cases hsel
  · rintro ⟨g, hg⟩ row hrow
    refine Bool.eq_false_iff.2 fun hsel => ?_
    have hm := decode_mnemonic_of_selects hrow hsel
    rw [hg] at hm
    cases hm

theorem decodeGroup8_noop_iff {o : Opcode} :
    (∃ g, decodeGroup8 o = .noop g) ↔ o.n ∈ ([0x8, 0x9, 0xA, 0xB, 0xC, 0xD, 0xF] : List Nibble) := by
  have hsel : (decodeGroup8 o).mnemonic = (decodeGroup8 (layoutRegReg 0x8 0 0 o.n)).mnemonic :=
    decodeGroup8_mnemonic_congr (by simp)
  rw [← Decoded.mnemonic_eq_none, hsel]
  generalize o.n = n
  revert n
  decide

theorem decodeGroupE_noop_iff {o : Opcode} :
    (∃ g, decodeGroupE o = .noop g) ↔ o.kk ≠ 0x9E ∧ o.kk ≠ 0xA1 := by
  simp only [ne_eq, ← BitVec.toNat_inj]
  unfold decodeGroupE
  split <;> simp_all

theorem decodeGroupF_noop_iff {o : Opcode} :
    (∃ g, decodeGroupF o = .noop g) ↔
      o.kk ∉ ([0x07, 0x0A, 0x15, 0x18, 0x1E, 0x29, 0x33, 0x55, 0x65] : List Byte) := by
  simp only [List.mem_cons, List.not_mem_nil, or_false, ← BitVec.toNat_inj]
  unfold decodeGroupF
  split <;> simp_all

/-- Within a group, the word is named by its low 12 bits (R72). -/
theorem eq_layoutAddr_iff {o : Opcode} {u : BitVec 4} (hu : o.u = u) (a : Addr) : o = layoutAddr u a ↔ o.nnn = a :=
  ⟨fun h => h ▸ layoutAddr_nnn u a, fun h => h ▸ hu ▸ eq_layoutAddr o⟩

/-- The no-op words of the decode function are the table of R80: each arm of the first-level select is the table's
entry for its group, or leaves no word of its group out. -/
theorem decode_noop_iff {o : Opcode} : (∃ g, decode o = .noop g) ↔ InNoOpSpace o := by
  unfold decode InNoOpSpace
  split
  case h_1 hu =>
    have hu : o.u = 0x0 := BitVec.eq_of_toNat_eq hu
    have hcls : o = 0x00E0 ↔ o.nnn = 0x0E0 := eq_layoutAddr_iff hu 0x0E0
    have hret : o = 0x00EE ↔ o.nnn = 0x0EE := eq_layoutAddr_iff hu 0x0EE
    split_ifs <;> simp_all
  case h_6 hu | h_10 hu => split_ifs with hn <;> simp [← BitVec.toNat_inj, hu, hn]
  case h_9 hu => simp [decodeGroup8_noop_iff, ← BitVec.toNat_inj, hu]
  case h_15 hu => simp [decodeGroupE_noop_iff, ← BitVec.toNat_inj, hu]
  case h_16 =>
    have hlt := o.u.isLt
    have hu : o.u.toNat = 0xF := by grind
    simp [decodeGroupF_noop_iff, ← BitVec.toNat_inj, hu]
  case h_2 hu | h_3 hu | h_4 hu | h_5 hu | h_7 hu | h_8 hu | h_11 hu | h_12 hu | h_13 hu | h_14 hu =>
    simp [← BitVec.toNat_inj, hu]

namespace Machine

/-! ## The step by the key wait (R90 to R93) -/

theorem step_of_waiting {s : State} {x : Nibble} (hw : s.waiting = some x) : step s = .refused .heldForKey := by
  rw [step, hw]

theorem step_of_not_waiting {s : State} (hw : s.waiting = none) : step s = execDecoded (decode s.fetch) s.nextWord := by
  rw [step, hw, State.fetchDecode]

theorem step_of_instr {s : State} {i : Instr} (hw : s.waiting = none) (hi : decode s.fetch = .instr i) :
    step s = exec i s.nextWord := by
  rw [step_of_not_waiting hw, hi, execDecoded]

theorem step_of_noop {s : State} {g : NoOp} (hw : s.waiting = none) (hg : decode s.fetch = .noop g) :
    step s = .next s.nextWord := by
  rw [step_of_not_waiting hw, hg, execDecoded]

/-- The advance of the fetch, over 12-bit words and over numbers (R92). -/
theorem State.nextWord_eq (s : State) : s.nextWord = s.setPc (BitVec.ofNat 12 ((s.pc.toNat + 2) % 4096)) :=
  congrArg s.setPc (BitVec.eq_of_toNat_eq (by simp))

theorem step_next_of_not_waiting {s : State} (hw : s.waiting = none) : ∃ t, step s = .next t := by
  cases hd : decode s.fetch with
  | instr i => exact step_of_instr hw hd ▸ exec_next i s.nextWord
  | noop g => exact ⟨_, step_of_noop hw hd⟩

@[simp] theorem State.tick_waiting (s : State) : s.tick.waiting = s.waiting := rfl
@[simp] theorem State.keyUp_waiting (s : State) (k : Nibble) : (s.keyUp k).waiting = s.waiting := rfl

/-! ## The obligations -/

/-- Settles O5: a word that selects no row is a no-op word of the decode function, whose body is empty. -/
theorem unassignedWordsAreNoOps : Obligations.UnassignedWordsAreNoOps := by
  refine fun o => ⟨no_row_selects_iff.trans decode_noop_iff, ?_⟩
  rintro s hw rfl hspace
  obtain ⟨g, hg⟩ := decode_noop_iff.2 hspace
  rw [step_of_noop hw hg, State.nextWord_eq]

/-- Settles O7: the body runs in the state whose pc the fetch has advanced. -/
theorem stepRunsTheDecodedInstruction : Obligations.StepRunsTheDecodedInstruction := fun s _ hw hi =>
  s.nextWord_eq ▸ step_of_instr hw hi

/-- Settles O8: the step is refused, Tick and KeyUp do not write W, and KeyDown clears it. -/
theorem stepIsHeldWhileWaiting : Obligations.StepIsHeldWhileWaiting := by
  intro s x hw
  have hheld : HostOp.step.apply s = .refused .heldForKey := step_of_waiting hw
  refine ⟨fun t ht => ?_, nofun, ⟨_, rfl, s.tick_waiting.trans hw⟩,
    fun k => ⟨_, rfl, (s.keyUp_waiting k).trans hw⟩, fun k => ⟨_, rfl, keyDown_waiting s k⟩⟩
  rw [hheld] at ht
  cases ht

/-- Settles O10: a step that answers a next state ran from W = none, and every body answers one; `Fault` has no
constructor (R210). -/
theorem stepCompletesUnlessHeld : Obligations.StepCompletesUnlessHeld := fun _ =>
  ⟨⟨fun ⟨_, ht⟩ => (step_cases ht).1, step_next_of_not_waiting⟩, nofun⟩

end Machine
end Sys2Proof
end

section
/-! PROOFS. Control transfer (spec/41_control_transfer.md R100 to R107). -/
namespace Sys2Proof

/-! ## The word of an instruction (R72, R75, R76) -/

/-- The first-level select reads back the group that the layout wrote, then the group's own select, where it has one,
reads back `n` or `kk` (R76). -/
theorem decode_encode (i : Instr) : decode (encode i) = .instr i := by
  cases i
  case cls | ret => rfl
  case jp | call | seImm | sneImm | seReg | ldImm | addImm | sneReg | ldI | jpV0 | rnd | drw => simp [encode, decode]
  case ldReg | or | and | xor | addReg | sub | shr | subn | shl => simp [encode, decode, decodeGroup8]
  case skp | sknp => simp [encode, decode, decodeGroupE]
  case ldVxDt | ldVxK | ldDtVx | ldStVx | addIVx | ldFVx | ldBVx | ldMemVx | ldVxMem =>
    simp [encode, decode, decodeGroupF]

/-- An instruction has its word as soon as the word's bits under the mask are the pattern. -/
theorem Instr.hasWord_of_and {i : Instr} {pattern mask : Opcode} (h : encode i &&& mask = pattern) :
    i.HasWord pattern mask :=
  ⟨h, decode_encode i⟩

/-- In groups 5 and 9 every `n` but 0 is in the no-op space (R80). -/
theorem decode_layoutRegReg_noop {u : BitVec 4} (hu : u = 0x5 ∨ u = 0x9) (x y : Nibble) {n : Nibble} (hn : n ≠ 0) :
    ∃ g, decode (layoutRegReg u x y n) = .noop g := by
  rw [decode_noop_iff, InNoOpSpace, layoutRegReg_u, layoutRegReg_n]
  obtain rfl | rfl := hu
  · exact .inr (.inl ⟨rfl, hn⟩)
  · exact .inr (.inr (.inr (.inl ⟨rfl, hn⟩)))

namespace Machine

/-! ## What the operations on pc and the stack leave unchanged -/

theorem Unchanged.refl (changed : List Part) (s : State) : Unchanged changed s s := by
  intro p _
  cases p <;> simp [Part.Same]

theorem unchanged_setPc (s : State) (a : Addr) : Unchanged [.pc] s (s.setPc a) := by
  intro p hp
  cases p
  case pc => simp at hp
  all_goals simp [Part.Same]

theorem unchanged_skipIf (s : State) (c : Bool) : Unchanged [.pc] s (s.skipIf c) := by
  cases c
  · exact .refl _ s
  · exact unchanged_setPc s _

theorem unchanged_popPc (s : State) : Unchanged [.pc, .sp] s s.popPc := by
  intro p hp
  cases p
  case pc | sp => simp at hp
  all_goals simp [Part.Same]

theorem unchanged_push_setPc (s : State) (a b : Addr) : Unchanged [.pc, .sp, .stack] s ((s.push a).setPc b) := by
  intro p hp
  cases p
  case pc | sp | stack => simp at hp
  all_goals simp [Part.Same]

/-! ## Where pc goes, and the slot of a push -/

theorem addAddr_toNat (a : Addr) (v : Byte) : (addAddr a v).toNat = (a.toNat + v.toNat) % 4096 :=
  BitVec.toNat_ofNat ..

theorem State.skipIf_pc_toNat (s : State) (p : Prop) [Decidable p] :
    (s.skipIf (decide p)).pc.toNat = if p then (s.pc.toNat + 2) % 4096 else s.pc.toNat := by
  by_cases hp : p <;> simp [hp]

/-- Under the invariant the slot that a push writes exists (R27, R34). -/
theorem State.Inv.push_slot_lt {s : State} (h : s.Inv) : (s.sp + 1) % s.cfg.stackDepth < s.stack.length := by
  obtain ⟨-, hlen, hsp, -⟩ := h
  rw [hlen]
  exact Nat.mod_lt _ (Nat.zero_lt_of_lt hsp)

/-- A body that is a skip moves pc by its condition and changes nothing else (R97). -/
theorem exec_skip {i : Instr} {s : State} {p : Prop} [Decidable p] (h : exec i s = .next (s.skipIf (decide p))) :
    ∃ t, exec i s = .next t ∧ t.pc.toNat = (if p then (s.pc.toNat + 2) % 4096 else s.pc.toNat) ∧
      Unchanged [.pc] s t :=
  ⟨_, h, s.skipIf_pc_toNat p, unchanged_skipIf s _⟩

/-! ## The obligations -/

/-- Settles O23: the body is the pop, which reads the slot and leaves it. -/
theorem returnPopsTheStack : Obligations.ReturnPopsTheStack := fun s _ =>
  ⟨Instr.hasWord_of_and (by decide), _, rfl, s.popPc_pc, s.popPc_sp, unchanged_popPc s⟩

/-- Settles O24: both bodies set pc alone, Bnnn to the sum narrowed to 12 bits. -/
theorem jumpsSetPc : Obligations.JumpsSetPc := fun nnn s =>
  ⟨Instr.hasWord_of_and (layoutAddr_group 0x1 nnn), Instr.hasWord_of_and (layoutAddr_group 0xB nnn),
    ⟨_, rfl, s.setPc_pc nnn, unchanged_setPc s _⟩,
    ⟨_, rfl, addAddr_toNat nnn (s.reg 0), unchanged_setPc s _⟩⟩

/-- Settles O25: the body pushes the advanced pc, then sets pc; the invariant makes the pushed slot one that exists. -/
theorem callPushesTheReturnAddress : Obligations.CallPushesTheReturnAddress := by
  intro nnn s hs
  have hslot : ∀ k, ((s.push s.pc).setPc nnn).slot k =
      if k = (s.sp + 1) % s.cfg.stackDepth then s.pc else s.slot k :=
    fun k => s.slot_push s.pc k hs.push_slot_lt
  exact ⟨Instr.hasWord_of_and (layoutAddr_group 0x2 nnn), _, rfl, s.push_sp s.pc, (hslot _).trans (if_pos rfl),
    fun k hk => (hslot k).trans (if_neg hk), List.length_set, State.setPc_pc _ nnn, unchanged_push_setPc s _ _⟩

/-- Settles O26: each of the four bodies is a skip by its comparison. -/
theorem skipsFollowTheComparison : Obligations.SkipsFollowTheComparison := fun x y kk _ =>
  ⟨Instr.hasWord_of_and (layoutRegByte_group 0x3 x kk), Instr.hasWord_of_and (layoutRegByte_group 0x4 x kk),
    Instr.hasWord_of_and (layoutRegReg_selector 0x5 x y 0), Instr.hasWord_of_and (layoutRegReg_selector 0x9 x y 0),
    fun _ hn => ⟨decode_layoutRegReg_noop (.inl rfl) x y hn, decode_layoutRegReg_noop (.inr rfl) x y hn⟩,
    exec_skip rfl, exec_skip rfl, exec_skip rfl, exec_skip rfl⟩

end Machine
end Sys2Proof
end

section
/-! PROOFS. Register loads, arithmetic, logic and shifts (spec/42_register_alu.md R120 to R134). -/
namespace Sys2Proof.Machine

/-! ## The computed bytes, as numbers (R11, R133, R134) -/

theorem addByte_toNat (a b : Byte) : (addByte a b).toNat = (a.toNat + b.toNat) % 256 := BitVec.toNat_ofNat ..

/-- The integer difference mod 256, without a negative number: 256 is added before the subtraction. -/
theorem subByte_toNat (a b : Byte) : (subByte a b).toNat = (a.toNat + 256 - b.toNat) % 256 := by
  have := b.isLt
  rw [subByte, BitVec.toNat_ofInt]
  omega

theorem shrByte_toNat (b : Byte) : (shrByte b).toNat = b.toNat / 2 := by
  have := b.isLt
  rw [shrByte, BitVec.toNat_ofNat, Nat.mod_eq_of_lt (by omega)]

theorem shlByte_toNat (b : Byte) : (shlByte b).toNat = b.toNat * 2 % 256 := BitVec.toNat_ofNat ..

/-! ## The flags, as numbers (R11, R22) -/

theorem flagByte_toNat_of_iff {c : Bool} {p : Prop} [Decidable p] (h : c = true ↔ p) :
    (flagByte c).toNat = if p then 1 else 0 := by
  cases c
  · rw [if_neg (mt h.2 Bool.false_ne_true)]; rfl
  · rw [if_pos (h.1 rfl)]; rfl

theorem flagByte_shrOut_toNat (b : Byte) : (flagByte (shrOut b)).toNat = b.toNat % 2 := by
  rw [flagByte_toNat_of_iff (shrOut_iff b)]
  split <;> omega

theorem flagByte_shlOut_toNat (b : Byte) : (flagByte (shlOut b)).toNat = b.toNat / 128 := by
  have := b.isLt
  rw [flagByte_toNat_of_iff (shlOut_iff b)]
  split <;> omega

/-! ## What a body that writes one register, or one register and the flag, leaves unchanged -/

theorem unchanged_setReg (s : State) (x : Nibble) (b : Byte) : Unchanged [.regs] s (s.setReg x b) := by
  intro p hp
  cases p
  case regs => simp at hp
  all_goals simp [Part.Same]

theorem unchanged_setRegFlag (s : State) (x : Nibble) (b : Byte) (c : Bool) :
    Unchanged [.regs] s (s.setRegFlag x b c) := by
  intro p hp
  cases p
  case regs => simp at hp
  all_goals simp [Part.Same]

/-- A body that sets V[x] to `b` sets no flag: VF is written only as V[x] (R126). -/
theorem exec_setReg {i : Instr} {s : State} {x : Nibble} {b : Byte} (h : exec i s = .next (s.setReg x b))
    (hw : i.writes = [x]) :
    ∃ t, exec i s = .next t ∧ t.reg x = b ∧ RegsUnchangedBut [x] s t ∧ Unchanged [.regs] s t :=
  ⟨_, h, s.reg_setReg_self x b, hw ▸ exec_regsUnchangedBut_writes h, unchanged_setReg s x b⟩

/-- A body that sets V[x] to `b` and then VF to `[c]`: the flag is written last, so it stays when x = 0xF (R94). -/
theorem exec_setRegFlag {i : Instr} {s : State} {x : Nibble} {b : Byte} {c : Bool} {f n : Nat}
    (h : exec i s = .next (s.setRegFlag x b c)) (hw : i.writes = [x, vf])
    (hf : (flagByte c).toNat = f) (hb : b.toNat = n) :
    ∃ t, exec i s = .next t ∧ (t.reg vf).toNat = f ∧ (x ≠ vf → (t.reg x).toNat = n) ∧
      RegsUnchangedBut [x, vf] s t ∧ Unchanged [.regs] s t := by
  refine ⟨_, h, ?_, fun hx => ?_, hw ▸ exec_regsUnchangedBut_writes h, unchanged_setRegFlag s x b c⟩
  · rw [State.reg_vf_setRegFlag, hf]
  · rw [State.reg_setRegFlag, if_neg hx, if_pos rfl, hb]

/-- The shift source is V[y] under VY and V[x] under VX (R130, R132). -/
theorem eq_shiftOperand {s : State} {x y : Nibble} {v : Byte} (hvy : s.cfg.shiftSrc = .vy → v = s.reg y)
    (hvx : s.cfg.shiftSrc = .vx → v = s.reg x) : v = s.shiftOperand x y := by
  unfold State.shiftOperand
  split
  · exact hvy ‹_›
  · exact hvx ‹_›

/-! ## The obligations -/

/-- Settles O32: both bodies write the shifted source, then the bit shifted out. -/
theorem shiftByOne : Obligations.ShiftByOne := by
  intro x y s v hvy hvx
  obtain rfl := eq_shiftOperand hvy hvx
  exact ⟨Instr.hasWord_of_and (layoutRegReg_selector 0x8 x y 0x6),
    Instr.hasWord_of_and (layoutRegReg_selector 0x8 x y 0xE),
    exec_setRegFlag rfl rfl (flagByte_shrOut_toNat _) (shrByte_toNat _),
    exec_setRegFlag rfl rfl (flagByte_shlOut_toNat _) (shlByte_toNat _)⟩

/-- Settles O28: both bodies set V[x] alone, 7xkk to the sum narrowed to a byte. -/
theorem immediateLoadAndAdd : Obligations.ImmediateLoadAndAdd := by
  intro x kk s
  obtain ⟨t, ht, hx, hregs, hrest⟩ := exec_setReg (i := .addImm x kk) (s := s) rfl rfl
  exact ⟨Instr.hasWord_of_and (layoutRegByte_group 0x6 x kk), Instr.hasWord_of_and (layoutRegByte_group 0x7 x kk),
    exec_setReg rfl rfl, t, ht, by rw [hx, addByte_toNat], hregs, hrest⟩

/-- Settles O29: each of the four bodies sets V[x] alone. -/
theorem copyAndBitwiseLogic : Obligations.CopyAndBitwiseLogic := fun x y _ =>
  ⟨Instr.hasWord_of_and (layoutRegReg_selector 0x8 x y 0x0), Instr.hasWord_of_and (layoutRegReg_selector 0x8 x y 0x1),
    Instr.hasWord_of_and (layoutRegReg_selector 0x8 x y 0x2), Instr.hasWord_of_and (layoutRegReg_selector 0x8 x y 0x3),
    exec_setReg rfl rfl, exec_setReg rfl rfl, exec_setReg rfl rfl, exec_setReg rfl rfl⟩

/-- Settles O30: the body writes the sum narrowed to a byte, then the carry. -/
theorem addWithCarry : Obligations.AddWithCarry := fun x y _ =>
  ⟨Instr.hasWord_of_and (layoutRegReg_selector 0x8 x y 0x4),
    exec_setRegFlag rfl rfl (flagByte_toNat_of_iff (addCarry_iff ..)) (addByte_toNat ..)⟩

/-- Settles O31: both bodies write the difference narrowed to a byte, then the flag of its sign; 8xy7 has the operands
of 8xy5 exchanged. -/
theorem subtractWithNoBorrowFlag : Obligations.SubtractWithNoBorrowFlag := fun x y _ =>
  ⟨Instr.hasWord_of_and (layoutRegReg_selector 0x8 x y 0x5), Instr.hasWord_of_and (layoutRegReg_selector 0x8 x y 0x7),
    exec_setRegFlag rfl rfl (flagByte_toNat_of_iff (subNoBorrow_iff ..)) (subByte_toNat ..),
    exec_setRegFlag rfl rfl (flagByte_toNat_of_iff (subNoBorrow_iff ..)) (subByte_toNat ..)⟩

end Sys2Proof.Machine
end

section
/-! PROOFS. The index register, the font address, BCD and the block transfers (spec/43_index_memory_bcd.md). -/
namespace Sys2Proof.Machine

/-! ## What the writes of I, of memory and of a block leave unchanged -/

/-- Frames compose: what neither step may change is unchanged after both. -/
theorem Unchanged.trans {c d : List Part} {s t u : State} (hst : Unchanged c s t) (htu : Unchanged d t u) :
    Unchanged (c ++ d) s u := by
  intro p hp
  obtain ⟨hc, hd⟩ : p ∉ c ∧ p ∉ d := by simpa using hp
  have hs := hst p hc
  have ht := htu p hd
  cases p
  case regs | memory => exact fun a => (ht a).trans (hs a)
  all_goals exact Eq.trans ht hs

theorem unchanged_setI (s : State) (a : Addr) : Unchanged [.index] s (s.setI a) := by
  intro p hp
  cases p
  case index => simp at hp
  all_goals simp [Part.Same]

theorem unchanged_loadBytes (s : State) (bs : List Byte) (a : Nat) :
    Unchanged [.memory] s (State.loadBytes bs a s) := by
  intro p hp
  cases p
  case memory => simp at hp
  all_goals simp [Part.Same]

theorem unchanged_storeRegs (s : State) (n : Nat) : Unchanged [.memory] s (s.storeRegs n) := by
  intro p hp
  cases p
  case memory => simp at hp
  all_goals simp [Part.Same]

theorem unchanged_loadRegs (s : State) (n : Nat) : Unchanged [.regs] s (s.loadRegs n) := by
  intro p hp
  cases p
  case regs => simp at hp
  all_goals simp [Part.Same]

/-! ## Addresses and digits, as numbers (R151, R152, R155) -/

/-- The glyph is selected by the low four bits alone (R152). -/
theorem State.glyphAddr_toNat (s : State) (b : Byte) :
    (s.glyphAddr b).toNat = (s.cfg.fontBase.toNat + b.toNat % 16 * 5) % 4096 := by
  have hlow : (lowNibble b).val = b.toNat % 16 := nibble_val (Nat.mod_lt _ (by decide))
  rw [State.glyphAddr, BitVec.toNat_ofNat, hlow]

theorem bcdHundreds_toNat (v : Byte) : (bcdHundreds v).toNat = v.toNat / 100 := by
  have := v.isLt
  rw [bcdHundreds, BitVec.toNat_ofNat, Nat.mod_eq_of_lt (by omega)]

theorem bcdTens_toNat (v : Byte) : (bcdTens v).toNat = v.toNat / 10 % 10 := by
  rw [bcdTens, BitVec.toNat_ofNat, Nat.mod_eq_of_lt (by omega)]

theorem bcdUnits_toNat (v : Byte) : (bcdUnits v).toNat = v.toNat % 10 := by
  rw [bcdUnits, BitVec.toNat_ofNat, Nat.mod_eq_of_lt (by omega)]

/-! ## Memory after the digits and after a block (R55, R156, R157) -/

/-- Loaded byte `j` is at a + j, past 0xFFF from 0 on too: at most 4096 consecutive addresses are distinct (R55). -/
theorem State.memRead_loadBytes_of_length_le {s : State} (bs : List Byte) {a j : Nat} (hm : s.mem.wf s.cfg = true)
    (hlen : bs.length ≤ memSize) (hj : j < bs.length) : (State.loadBytes bs a s).memRead (a + j) = bs[j] := by
  induction bs generalizing a j s with
  | nil => exact absurd hj (Nat.not_lt_zero j)
  | cons b bs ih =>
    rw [List.length_cons] at hlen hj
    cases j with
    | zero =>
      have hlater : ∀ k, k < bs.length → a % memSize ≠ (a + 1 + k) % memSize := by
        simp only [memSize] at hlen ⊢
        omega
      calc (State.loadBytes bs (a + 1) (s.memWrite a b)).memRead a
        _ = (s.memWrite a b).memRead a := State.memRead_loadBytes_outside _ bs hlater
        _ = b := by rw [State.memRead_memWrite hm, if_pos rfl]
    | succ j =>
      have hj' : j < bs.length := by omega
      rw [State.loadBytes, show a + (j + 1) = a + 1 + j by omega, ih (State.memWrite_wf hm a b) (by omega) hj',
        List.getElem_cons_succ]

/-- The digits of a byte in the order in which Fx33 stores them (R155, R156). -/
def bcdDigits (v : Byte) : List Byte := [bcdHundreds v, bcdTens v, bcdUnits v]

/-- Fx33 places its three digits as bytes from I on (R156). -/
theorem exec_ldBVx (x : Nibble) (s : State) : exec (.ldBVx x) s =
    .next (State.loadBytes (bcdDigits (s.reg x)) s.i.toNat s) := rfl

/-- After Fx33 the byte at I + j mod 4096 is digit `j` (R156). -/
theorem State.memRead_loadBytes_bcdDigits {s : State} (hs : s.Inv) (v : Byte) {j : Nat} (hj : j < 3) :
    (State.loadBytes (bcdDigits v) s.i.toNat s).memRead ((s.i.toNat + j) % 4096) = (bcdDigits v)[j] := by
  obtain ⟨-, -, -, hwf⟩ := hs
  have hlen : (bcdDigits v).length ≤ memSize := Nat.le_of_ble_eq_true rfl
  rw [State.memRead_mod, State.memRead_loadBytes_of_length_le _ hwf hlen hj]

/-- After storing V[0..x], the byte at I + r is V[r] (R157). -/
theorem State.memRead_storeRegs_of_le {s : State} (hs : s.Inv) {r x : Nibble} (hr : r ≤ x) :
    (s.storeRegs (x.val + 1)).memRead (s.i.toNat + r.val) = s.reg r := by
  obtain ⟨-, -, -, hwf⟩ := hs
  rw [State.memRead_storeRegs hwf (by omega) (Nat.lt_succ_of_le hr), nibble_of_val]

/-! ## Registers and I after a block (R158, R159) -/

/-- After loading V[0..x], V[r] is the byte at I + r (R158). -/
theorem State.reg_loadRegs_of_le (s : State) {r x : Nibble} (hr : r ≤ x) :
    (s.loadRegs (x.val + 1)).reg r = s.memRead (s.i.toNat + r.val) := by
  rw [State.reg_loadRegs s (by omega), if_pos (Nat.lt_succ_of_le hr)]

theorem State.blockNextI_of_unchanged {s : State} (h : s.cfg.lsAdvance = .unchanged) (x : Nibble) :
    s.blockNextI x = s.i := by
  simp [State.blockNextI, h]

theorem State.blockNextI_toNat_of_advance {s : State} (h : s.cfg.lsAdvance = .advance) (x : Nibble) :
    (s.blockNextI x).toNat = (s.i.toNat + x.val + 1) % 4096 := by
  simp [State.blockNextI, h]

/-! ## The obligations -/

/-- Settles O36: the digits are three bytes placed from I on, and `MemWrite` takes each address mod 4096. -/
theorem bcdStoresThreeDigits : Obligations.BcdStoresThreeDigits := fun x s hs =>
  ⟨Instr.hasWord_of_and (layoutRegByte_subop 0xF x 0x33), _, exec_ldBVx x s,
    (congrArg _ (State.memRead_loadBytes_bcdDigits hs _ (j := 0) (by decide))).trans (bcdHundreds_toNat _),
    (congrArg _ (State.memRead_loadBytes_bcdDigits hs _ (j := 1) (by decide))).trans (bcdTens_toNat _),
    (congrArg _ (State.memRead_loadBytes_bcdDigits hs _ (j := 2) (by decide))).trans (bcdUnits_toNat _),
    fun _ ha => s.memRead_loadBytes_outside _ ha, unchanged_loadBytes s _ _⟩

/-- Settles O37: each body moves the block from the I it started with, then sets I. -/
theorem blockStoreAndBlockLoad : Obligations.BlockStoreAndBlockLoad := by
  intro x s hs
  refine ⟨Instr.hasWord_of_and (layoutRegByte_subop 0xF x 0x55), Instr.hasWord_of_and (layoutRegByte_subop 0xF x 0x65),
    ⟨_, rfl, fun r hr => ?_, fun a ha => ?_, fun h => State.blockNextI_of_unchanged h x,
      fun h => State.blockNextI_toNat_of_advance h x, (unchanged_storeRegs s _).trans (unchanged_setI _ _)⟩,
    ⟨_, rfl, fun r hr => ?_, fun r hr => ?_, fun h => State.blockNextI_of_unchanged h x,
      fun h => State.blockNextI_toNat_of_advance h x, (unchanged_loadRegs s _).trans (unchanged_setI _ _)⟩⟩
  · rw [State.memRead_mod, State.memRead_setI, State.memRead_storeRegs_of_le hs hr]
  · rw [State.memRead_setI, State.memRead_storeRegs_outside s ha]
  · rw [State.memRead_mod, State.reg_setI, State.reg_loadRegs_of_le s hr]
  · rw [State.reg_setI, State.reg_loadRegs s (by omega), if_neg (Nat.not_lt.2 (Fin.not_le.1 hr))]

/-- Settles O38: the load reads, at the same addresses, the bytes that the store wrote; what either body then sets I to
plays no part. -/
theorem blockTransferRoundTrip : Obligations.BlockTransferRoundTrip := by
  refine fun x s hs => ⟨_, rfl, fun w hi hmem => ⟨_, rfl, fun r hr => ?_⟩⟩
  calc ((w.loadRegs (x.val + 1)).setI (w.blockNextI x)).reg r
    _ = w.memRead (w.i.toNat + r.val) := w.reg_loadRegs_of_le hr
    _ = (s.storeRegs (x.val + 1)).memRead (s.i.toNat + r.val) := by rw [hi, hmem, State.memRead_setI]
    _ = s.reg r := State.memRead_storeRegs_of_le hs hr

/-- Settles O34: both bodies set I alone. -/
theorem loadIndexAndFontAddress : Obligations.LoadIndexAndFontAddress := fun nnn x s =>
  ⟨Instr.hasWord_of_and (layoutAddr_group 0xA nnn), Instr.hasWord_of_and (layoutRegByte_subop 0xF x 0x29),
    ⟨_, rfl, s.setI_i nnn, unchanged_setI s nnn⟩, ⟨_, rfl, s.glyphAddr_toNat (s.reg x), unchanged_setI s _⟩⟩

/-- Settles O35: the body sets I to the sum narrowed to 12 bits, then VF to its overflow; V[x] is read before VF is
written, so x = 0xF is no exception. -/
theorem addToIndexSetsOverflow : Obligations.AddToIndexSetsOverflow := by
  intro x s
  refine ⟨Instr.hasWord_of_and (layoutRegByte_subop 0xF x 0x1E), _, rfl, addAddr_toNat s.i (s.reg x), ?_,
    exec_regsUnchangedBut_writes (i := .addIVx x) rfl, (unchanged_setI s _).trans (unchanged_setReg _ vf _)⟩
  rw [State.reg_vf_setFlag, flagByte_toNat_of_iff (addAddrOverflow_iff ..)]

end Sys2Proof.Machine
end

section
/-! PROOFS. The display: clear, the sprite blitter and the packed blitter (spec/44_display.md). -/
namespace Sys2Proof.Machine

/-! ## Toggling a set of pixels

What the blitter of R173 and the packed blitter of R179 have in common: each toggles a set of pixels, and reports a
collision exactly where a pixel of the set was on. -/

/-- From the picture `d` with flag `h`, exactly the pixels of `S` are toggled, to the picture `e`, and the flag `k`
adds whether one of them was on (R173, R174). -/
structure Toggles (S : Fin 32 → Fin 64 → Prop) (d e : Fin 32 → Fin 64 → Bool) (h k : Bool) : Prop where
  pixel_eq_iff : ∀ r c, e r c = d r c ↔ ¬S r c
  hit_iff : k = true ↔ h = true ∨ ∃ r c, S r c ∧ d r c = true

section
variable {S T : Fin 32 → Fin 64 → Prop} {d e f : Fin 32 → Fin 64 → Bool} {h k l : Bool}

theorem Toggles.pixel_of_mem (ht : Toggles S d e h k) {r : Fin 32} {c : Fin 64} (hS : S r c) : e r c = !d r c :=
  Bool.eq_not_of_ne fun heq => (ht.pixel_eq_iff r c).1 heq hS

theorem Toggles.pixel_of_not_mem (ht : Toggles S d e h k) {r : Fin 32} {c : Fin 64} (hS : ¬S r c) : e r c = d r c :=
  (ht.pixel_eq_iff r c).2 hS

theorem Toggles.congr (ht : Toggles S d e h k) (hST : ∀ r c, S r c ↔ T r c) : Toggles T d e h k := by
  obtain rfl : S = T := funext₂ fun r c => propext (hST r c)
  exact ht

theorem Toggles.refl (hS : ∀ r c, ¬S r c) : Toggles S d d h h :=
  ⟨fun r c => iff_of_true rfl (hS r c), by simp [hS]⟩

/-- The set of toggled pixels fixes the picture and the flag. -/
theorem Toggles.unique (hk : Toggles S d e h k) (hl : Toggles S d f h l) : e = f ∧ k = l := by
  refine ⟨funext₂ fun r c => ?_, Bool.eq_iff_iff.2 (hk.hit_iff.trans hl.hit_iff.symm)⟩
  by_cases hS : S r c
  · rw [hk.pixel_of_mem hS, hl.pixel_of_mem hS]
  · rw [hk.pixel_of_not_mem hS, hl.pixel_of_not_mem hS]

/-- Disjoint sets toggled one after the other are toggled together: the second sees none of the first's changes. -/
theorem Toggles.trans (hS : Toggles S d e h k) (hT : Toggles T e f k l) (hdisj : ∀ r c, S r c → ¬T r c) :
    Toggles (fun r c => S r c ∨ T r c) d f h l where
  pixel_eq_iff r c := by
    by_cases hs : S r c
    · simp [hs, hT.pixel_of_not_mem (hdisj r c hs), hS.pixel_of_mem hs]
    · rw [← hS.pixel_of_not_mem hs, hT.pixel_eq_iff]
      simp [hs]
  hit_iff := by
    have hkept : ∀ r c, T r c ∧ e r c = true ↔ T r c ∧ d r c = true := fun r c =>
      and_congr_right fun ht => by rw [hS.pixel_of_not_mem fun hs => hdisj r c hs ht]
    simp only [hT.hit_iff, hS.hit_iff, hkept, or_and_right, exists_or, or_assoc]

/-- From a flag that is off, a collision is a pixel that went from 1 to 0 (R174). -/
theorem Toggles.hit_iff_turned_off (ht : Toggles S d e false k) :
    k = true ↔ ∃ r c, d r c = true ∧ e r c = false := by
  rw [ht.hit_iff]
  simp only [Bool.false_eq_true, false_or]
  refine exists_congr fun r => exists_congr fun c => ?_
  by_cases hS : S r c
  · simp [hS, ht.pixel_of_mem hS]
  · simp [hS, ht.pixel_of_not_mem hS]

end

/-! ## The blitter toggles the covered pixels (R173, R175) -/

/-- The pixels that the bit `bit` of the sprite toggles: its own, where it is set. -/
def BitCovers (sprite : Nat → Byte) (cx cy : Byte) (bit : Nat × Nat) (r : Fin 32) (c : Fin 64) : Prop :=
  spriteBit (sprite bit.1) bit.2 = true ∧ pixelRow cy bit.1 = r ∧ pixelCol cx bit.2 = c

theorem blitPixel_toggles (sprite : Nat → Byte) (cx cy : Byte) (bit : Nat × Nat) (p : Blit) :
    Toggles (BitCovers sprite cx cy bit) p.display.pixel
      (blitPixel cx cy (sprite bit.1) bit.1 bit.2 p).display.pixel p.hit
      (blitPixel cx cy (sprite bit.1) bit.1 bit.2 p).hit where
  pixel_eq_iff r c := by
    rw [blitPixel_pixel, BitCovers, eq_comm (b := r), eq_comm (b := c)]
    split <;> simp [*]
  hit_iff := by simp [blitPixel_hit, BitCovers, and_assoc]

/-- Over bits that land on distinct pixels no bit sees another's toggle. -/
theorem foldl_blitPixel_toggles (sprite : Nat → Byte) (cx cy : Byte) (bits : List (Nat × Nat)) (p : Blit)
    (hdistinct : (bits.map (pixelOf cx cy)).Nodup) :
    Toggles (fun r c => ∃ bit ∈ bits, BitCovers sprite cx cy bit r c) p.display.pixel
      (bits.foldl (fun q bit => blitPixel cx cy (sprite bit.1) bit.1 bit.2 q) p).display.pixel p.hit
      (bits.foldl (fun q bit => blitPixel cx cy (sprite bit.1) bit.1 bit.2 q) p).hit := by
  induction bits generalizing p with
  | nil => exact .refl (by simp)
  | cons bit bits ih =>
    obtain ⟨hnew, hrest⟩ := List.nodup_cons.1 hdistinct
    refine ((blitPixel_toggles sprite cx cy bit p).trans (ih _ hrest) ?_).congr (by simp)
    rintro r c ⟨-, hr, hc⟩ ⟨bit', hmem, -, hr', hc'⟩
    exact hnew (List.mem_map.2 ⟨bit', hmem, Prod.ext (hr'.trans hr.symm) (hc'.trans hc.symm)⟩)

theorem blitRows_toggles (sprite : Nat → Byte) (cx cy : Byte) {n : Nat} (hn : n ≤ 32) (p : Blit) :
    Toggles (SpriteCovers sprite cx cy n) p.display.pixel (blitRows sprite cx cy n p).display.pixel p.hit
      (blitRows sprite cx cy n p).hit := by
  rw [blitRows_eq_foldl]
  exact (foldl_blitPixel_toggles sprite cx cy _ p (spriteBits_pixels_nodup hn cx cy)).congr
    fun r c => spriteCovers_iff.symm

theorem Blit.ext_pixel {p q : Blit} (hpixel : p.display.pixel = q.display.pixel) (hhit : p.hit = q.hit) : p = q := by
  obtain ⟨d, h⟩ := p
  obtain rfl : d = q.display := Display.ext_pixel fun r c => congrFun₂ hpixel r c
  obtain rfl : h = q.hit := hhit
  rfl

/-! ## The packed blitter toggles the covered pixels (R179) -/

/-- The byte that holds pixel (r, c) (R179). -/
def pixelByte (r : Fin 32) (c : Fin 64) : Fin 256 := Fin.ofNat 256 (8 * r.val + c.val / 8)

theorem PackedDisplay.pixel_eq (p : PackedDisplay) (r : Fin 32) (c : Fin 64) :
    p.pixel r c = (p.get (pixelByte r c)).getLsbD (7 - c.val % 8) := rfl

/-- Every bit of every byte is a pixel (R179). -/
theorem exists_pixel_of_bit (j : Fin 256) {i : Nat} (hi : i < 8) :
    ∃ r c, pixelByte r c = j ∧ 7 - c.val % 8 = i := by
  refine ⟨⟨j.val / 8, by omega⟩, ⟨8 * (j.val % 8) + (7 - i), by omega⟩, Fin.ext ?_, ?_⟩
  · simp only [pixelByte, Fin.val_ofNat]
    omega
  · simp only
    omega

/-- Two bytes have a common set bit exactly where their conjunction is not 0. -/
theorem byte_and_ne_zero_iff (a b : Byte) : a &&& b ≠ 0 ↔ ∃ i < 8, a.getLsbD i = true ∧ b.getLsbD i = true := by
  rw [← not_iff_not, not_not]
  constructor
  · rintro hab ⟨i, -, ha, hb⟩
    simpa [ha, hb] using congrArg (·.getLsbD i) hab
  · intro hno
    refine BitVec.eq_of_getLsbD_eq (y := 0#8) fun i hi => ?_
    rw [BitVec.getLsbD_and, BitVec.getLsbD_zero, ← Bool.not_eq_true, Bool.and_eq_true]
    exact fun hbits => hno ⟨i, hi, hbits⟩

/-- A byte XORed into byte `j` toggles the pixels of byte `j` at its set bits. -/
theorem packedXor_toggles (j : Fin 256) (b : Byte) (p : PackedBlit) :
    Toggles (fun r c => pixelByte r c = j ∧ b.getLsbD (7 - c.val % 8) = true)
      p.bytes.pixel (packedXor j b p).bytes.pixel p.hit (packedXor j b p).hit where
  pixel_eq_iff r c := by
    by_cases hj : pixelByte r c = j
    · simp only [PackedDisplay.pixel_eq, packedXor, Vector.get_eq_getElem, hj, Vector.getElem_set_self,
        BitVec.getLsbD_xor]
      cases b.getLsbD (7 - c.val % 8) <;> simp
    · have hne : j.val ≠ (pixelByte r c).val := fun h => hj (Fin.ext h.symm)
      simp only [PackedDisplay.pixel_eq, packedXor, Vector.get_eq_getElem, Vector.getElem_set_ne _ _ hne]
      simp [hj]
  hit_iff := by
    simp only [packedXor, Bool.or_eq_true, decide_eq_true_iff, byte_and_ne_zero_iff]
    refine or_congr_right ⟨?_, ?_⟩
    · rintro ⟨i, hi, hp, hb⟩
      obtain ⟨r, c, rfl, rfl⟩ := exists_pixel_of_bit j hi
      exact ⟨r, c, ⟨rfl, hb⟩, hp⟩
    · rintro ⟨r, c, ⟨rfl, hb⟩, hp⟩
      exact ⟨_, by omega, hp, hb⟩

theorem getLsbD_div_two_pow (b : Byte) (s i : Nat) :
    (BitVec.ofNat 8 (b.toNat / 2 ^ s)).getLsbD i = (decide (i < 8) && b.getLsbD (s + i)) := by
  rw [BitVec.getLsbD_ofNat, Nat.testBit_div_two_pow, Nat.add_comm, BitVec.getLsbD]

theorem getLsbD_mul_two_pow (b : Byte) (s i : Nat) :
    (BitVec.ofNat 8 (b.toNat * 2 ^ s)).getLsbD i = (decide (i < 8) && (decide (s ≤ i) && b.getLsbD (i - s))) := by
  rw [BitVec.getLsbD_ofNat, Nat.testBit_mul_two_pow, BitVec.getLsbD]

theorem pixelByte_eq_packedByte_iff {cx : Byte} {row : Fin 32} {h : Nat} {r : Fin 32} {c : Fin 64} :
    pixelByte r c = packedByte cx row h ↔ row = r ∧ c.val / 8 = (cx.toNat % 64 / 8 + h) % 8 := by
  rw [Fin.ext_iff, Fin.ext_iff, pixelByte, packedByte, Fin.val_ofNat, Fin.val_ofNat]
  omega

/-- Shifted right, the sprite byte puts its left bits into the byte of column `cx`; shifted left, it puts the others
into the next byte. Together they are the set bits of the sprite byte, each at its own column (R175, R179). -/
theorem packedHalves_iff {cx b : Byte} {c : Fin 64} :
    (c.val / 8 = (cx.toNat % 64 / 8 + 0) % 8 ∧
        (BitVec.ofNat 8 (b.toNat / 2 ^ (cx.toNat % 8))).getLsbD (7 - c.val % 8) = true) ∨
      (c.val / 8 = (cx.toNat % 64 / 8 + 1) % 8 ∧
        (BitVec.ofNat 8 (b.toNat * 2 ^ (8 - cx.toNat % 8))).getLsbD (7 - c.val % 8) = true) ↔
    ∃ dc < 8, spriteBit b dc = true ∧ pixelCol cx dc = c := by
  simp only [getLsbD_div_two_pow, getLsbD_mul_two_pow, spriteBit, pixelCol, Fin.ext_iff, Fin.val_ofNat, Bool.and_eq_true,
    decide_eq_true_iff]
  constructor
  · rintro (⟨hc, -, hb⟩ | ⟨hc, -, hs, hb⟩)
    · have hlt := BitVec.lt_of_getLsbD hb
      refine ⟨c.val % 8 - cx.toNat % 8, by omega, ?_, by omega⟩
      rwa [show 7 - (c.val % 8 - cx.toNat % 8) = cx.toNat % 8 + (7 - c.val % 8) by omega]
    · have hlt := BitVec.lt_of_getLsbD hb
      refine ⟨8 + c.val % 8 - cx.toNat % 8, by omega, ?_, by omega⟩
      rwa [show 7 - (8 + c.val % 8 - cx.toNat % 8) = 7 - c.val % 8 - (8 - cx.toNat % 8) by omega]
  · rintro ⟨dc, hdc, hb, hc⟩
    by_cases hhalf : cx.toNat % 8 + dc < 8
    · refine .inl ⟨by omega, by omega, ?_⟩
      rwa [show cx.toNat % 8 + (7 - c.val % 8) = 7 - dc by omega]
    · refine .inr ⟨by omega, by omega, by omega, ?_⟩
      rwa [show 7 - c.val % 8 - (8 - cx.toNat % 8) = 7 - dc by omega]

/-- The pixels that row `dr` of the sprite toggles: those its set bits land on. -/
def RowCovers (sprite : Nat → Byte) (cx cy : Byte) (dr : Nat) (r : Fin 32) (c : Fin 64) : Prop :=
  pixelRow cy dr = r ∧ ∃ dc < 8, spriteBit (sprite dr) dc = true ∧ pixelCol cx dc = c

theorem spriteCovers_succ {sprite : Nat → Byte} {cx cy : Byte} {n : Nat} {r : Fin 32} {c : Fin 64} :
    SpriteCovers sprite cx cy (n + 1) r c ↔ SpriteCovers sprite cx cy n r c ∨ RowCovers sprite cx cy n r c := by
  constructor
  · rintro ⟨dr, dc, hdr, hdc, hset, hr, hc⟩
    obtain hdr | rfl := Nat.lt_succ_iff_lt_or_eq.1 hdr
    · exact .inl ⟨dr, dc, hdr, hdc, hset, hr, hc⟩
    · exact .inr ⟨Fin.ext hr, dc, hdc, hset, Fin.ext hc⟩
  · rintro (⟨dr, dc, hdr, hrest⟩ | ⟨rfl, dc, hdc, hset, rfl⟩)
    · exact ⟨dr, dc, Nat.lt_succ_of_lt hdr, hrest⟩
    · exact ⟨n, dc, Nat.lt_succ_self n, hdc, hset, rfl, rfl⟩

theorem packedBlitRow_toggles (sprite : Nat → Byte) (cx cy : Byte) (r : Nat) (p : PackedBlit) :
    Toggles (RowCovers sprite cx cy r) p.bytes.pixel (packedBlitRow cx cy (sprite r) r p).bytes.pixel p.hit
      (packedBlitRow cx cy (sprite r) r p).hit := by
  refine ((packedXor_toggles _ _ p).trans (packedXor_toggles _ _ _) ?_).congr fun r' c => ?_
  · rintro r' c ⟨h₀, -⟩ ⟨h₁, -⟩
    rw [pixelByte_eq_packedByte_iff] at h₀ h₁
    omega
  · simp only [pixelByte_eq_packedByte_iff, and_assoc, ← and_or_left, packedHalves_iff, RowCovers]

theorem packedBlitRows_toggles (sprite : Nat → Byte) (cx cy : Byte) {n : Nat} (hn : n ≤ 32) (p : PackedBlit) :
    Toggles (SpriteCovers sprite cx cy n) p.bytes.pixel (packedBlitRows sprite cx cy n p).bytes.pixel p.hit
      (packedBlitRows sprite cx cy n p).hit := by
  induction n with
  | zero => exact .refl fun r c ⟨_, _, hr, _⟩ => Nat.not_lt_zero _ hr
  | succ n ih =>
    refine ((ih (by omega)).trans (packedBlitRow_toggles sprite cx cy n _) ?_).congr fun r c => spriteCovers_succ.symm
    rintro r c ⟨dr, -, hdr, -, -, hr, -⟩ ⟨hrow, -⟩
    have hrow : (cy.toNat + n) % 32 = r.val := congrArg Fin.val hrow
    omega

/-! ## What a draw does (R173 to R175) -/

/-- The sprite is the bytes at I, I + 1, .. mod 4096 (R172). -/
theorem State.spriteByte_eq (s : State) : s.spriteByte = fun k => s.memRead ((s.i.toNat + k) % 4096) :=
  funext fun _ => (State.memRead_mod ..).symm

theorem State.blit_toggles (s : State) (cx cy : Byte) {n : Nat} (hn : n ≤ 32) :
    Toggles (SpriteCovers s.spriteByte cx cy n) s.display.pixel (s.blit cx cy n).display.pixel false
      (s.blit cx cy n).hit :=
  blitRows_toggles s.spriteByte cx cy hn { display := s.display, hit := false }

theorem unchanged_setDisplay (s : State) (d : Display) : Unchanged [.display] s (s.setDisplay d) := by
  intro p hp
  cases p
  case display => simp at hp
  all_goals simp [Part.Same]

/-- The state of the counterexample to R178's sentence on VF: the top row of glyph 0 is on the screen, and I, V0 and V1
give the same sprite at the same place. -/
def glyphRowDrawn : State := State.reset.setDisplay (State.reset.blit 0 0 1).display

/-- One draw from reset reaches the state of the counterexample. -/
theorem exec_drw_reset : exec (.drw 0 1 1) State.reset = .next glyphRowDrawn := 
  congrArg Host.Outcome.next (by decide)

/-! ## The obligations -/

/-- Settles O40: the covered pixels are toggled, and the flag is a covered pixel that was on, which is one that went
from 1 to 0. -/
theorem drawXorsTheSprite : Obligations.DrawXorsTheSprite := by
  intro x y n s
  have ht := s.blit_toggles (s.reg x) (s.reg y) (n := n.val) (by omega)
  rw [← s.spriteByte_eq]
  refine ⟨Instr.hasWord_of_and (layoutRegReg_group 0xD x y n), _, rfl,
    fun r c => ⟨ht.pixel_of_mem, ht.pixel_of_not_mem⟩, fun hoff => ?_, fun hoff => ?_,
    exec_regsUnchangedBut_writes (i := .drw x y n) rfl, (unchanged_setDisplay s _).trans (unchanged_setReg _ vf _)⟩
  · rw [State.reg_vf_setFlag, ht.hit_iff_turned_off.2 hoff]; rfl
  · rw [State.reg_vf_setFlag, Bool.eq_false_iff.2 (mt ht.hit_iff_turned_off.1 hoff)]; rfl

/-- Settles O42: over any order of the bits the same pixels are toggled, from the same display and flag. -/
theorem spriteBitOrderDoesNotMatter : Obligations.SpriteBitOrderDoesNotMatter := by
  intro sprite cx cy n p
  have hn : n.val ≤ 32 := by omega
  refine ⟨fun r₁ c₁ r₂ c₂ hr₁ hr₂ hc₁ hc₂ hrow hcol => ?_, fun order hperm => ?_⟩
  · exact Prod.mk.inj (pixelOf_injOn hn cx cy (r₁, c₁) (mem_spriteBits.2 ⟨hr₁, hc₁⟩) (r₂, c₂)
      (mem_spriteBits.2 ⟨hr₂, hc₂⟩) (Prod.ext hrow hcol))
  · have hdistinct : (order.map (pixelOf cx cy)).Nodup :=
      (hperm.map _).nodup_iff.2 (spriteBits_pixels_nodup hn cx cy)
    have horder := (foldl_blitPixel_toggles sprite cx cy order p hdistinct).congr (T := SpriteCovers sprite cx cy n.val)
      fun r c => by simp only [hperm.mem_iff, spriteCovers_iff, BitCovers]
    obtain ⟨hpixel, hhit⟩ := horder.unique (blitRows_toggles sprite cx cy hn p)
    exact Blit.ext_pixel hpixel hhit

/-- Refutes O44: from `glyphRowDrawn` the first draw turns the sprite's pixels off and the second turns them on again,
which is no collision (R174), although the sprite byte 0xF0 is not 0. -/
theorem not_secondDrawCollidesForEverySetBit : ¬Obligations.SecondDrawCollidesForEverySetBit := by
  intro hall
  obtain ⟨t, ht, hsecond⟩ := hall 0 1 1 glyphRowDrawn
  cases ht
  obtain ⟨u, hu, -, hset, -⟩ := hsecond (by decide) (by decide)
  cases hu
  exact absurd (hset ⟨0, by decide, by decide⟩) (by decide)

/-- Settles O45: both blitters toggle the pixels that the sprite covers, from the same picture and flag. -/
theorem packedBlitterAgrees : Obligations.PackedBlitterAgrees := by
  intro sprite cx cy n p q hshows hhit
  have hn : n.val ≤ 32 := by omega
  have hpacked := packedBlitRows_toggles sprite cx cy hn p
  rw [funext₂ hshows, hhit] at hpacked
  obtain ⟨hpixel, hflag⟩ := hpacked.unique (blitRows_toggles sprite cx cy hn q)
  exact ⟨fun r c => congrFun₂ hpixel r c, hflag⟩

/-- Settles O39: the body sets the display alone, to the clear one. -/
theorem clearTurnsEveryPixelOff : Obligations.ClearTurnsEveryPixelOff := fun s =>
  ⟨Instr.hasWord_of_and rfl, _, rfl, Display.pixel_clear, unchanged_setDisplay s _⟩

/-- Settles O41: with no row the blitter leaves the display and the flag it starts with, so the body sets VF alone. -/
theorem drawOfNoRowsClearsVf : Obligations.DrawOfNoRowsClearsVf := fun x y s =>
  ⟨s.setFlag false, rfl, s.reg_vf_setFlag false, exec_regsUnchangedBut_writes (i := .drw x y 0) rfl,
    unchanged_setReg s vf _⟩

end Sys2Proof.Machine
end

section
/-! PROOFS. The timers and the key wait (spec/45_timers_keypad.md R190 to R192, R196, R197). -/
namespace Sys2Proof.Machine

/-! ## What the writes of the timers, of a key and of W leave unchanged -/

/-- A frame that may change more parts claims less. -/
theorem Unchanged.mono {c d : List Part} {s t : State} (h : Unchanged c s t) (hcd : c ⊆ d) : Unchanged d s t :=
  fun p hp => h p fun hc => hp (hcd hc)

theorem unchanged_setDt (s : State) (b : Byte) : Unchanged [.delay] s (s.setDt b) := by
  intro p hp
  cases p
  case delay => simp at hp
  all_goals simp [Part.Same]

theorem unchanged_setSt (s : State) (b : Byte) : Unchanged [.sound] s (s.setSt b) := by
  intro p hp
  cases p
  case sound => simp at hp
  all_goals simp [Part.Same]

theorem unchanged_setKey (s : State) (k : Nibble) (p : Bool) : Unchanged [.keys] s (s.setKey k p) := by
  intro q hq
  cases q
  case keys => simp at hq
  all_goals simp [Part.Same]

theorem unchanged_setWaiting (s : State) (w : Option Nibble) : Unchanged [.waiting] s (s.setWaiting w) := by
  intro p hp
  cases p
  case waiting => simp at hp
  all_goals simp [Part.Same]

theorem unchanged_tick (s : State) : Unchanged [.delay, .sound] s s.tick :=
  (unchanged_setDt s _).trans (unchanged_setSt _ _)

theorem unchanged_keyUp (s : State) (k : Nibble) : Unchanged [.keys] s (s.keyUp k) :=
  unchanged_setKey s k false

/-! ## The keypad and the sound output (R29, R224) -/

theorem State.keys_get_setKey (s : State) (k j : Nibble) (p : Bool) :
    (s.setKey k p).keys.get j = if j = k then p else s.keys.get j := by
  simp [Vector.get_eq_getElem, Vector.getElem_set, Fin.ext_iff, eq_comm]

theorem State.soundOut_iff (s : State) : s.soundOut = true ↔ s.st ≠ 0 := by
  rw [State.soundOut, decide_eq_true_iff, ← BitVec.toNat_ne_iff_ne]
  exact Nat.pos_iff_ne_zero

/-! ## The key wait (R196, R197, R222) -/

/-- In a key wait, KeyDown also stores the key code and ends the wait. -/
theorem State.keyDown_of_waiting {s : State} {x : Nibble} (hw : s.waiting = some x) (k : Nibble) :
    s.keyDown k = ((s.setKey k true).setReg x (BitVec.ofNat 8 k.val)).setWaiting none := by
  rw [State.keyDown, hw]

theorem State.reg_keyDown_of_waiting {s : State} {x : Nibble} (hw : s.waiting = some x) (k : Nibble) :
    ((s.keyDown k).reg x).toNat = k.val := by
  rw [State.keyDown_of_waiting hw, State.reg_setWaiting, State.reg_setReg_self, BitVec.toNat_ofNat]
  omega

/-- KeyDown presses its key, in a key wait or not. -/
theorem State.keys_get_keyDown_self (s : State) (k : Nibble) : (s.keyDown k).keys.get k = true := by
  cases hw : s.waiting with
  | none => rw [State.keyDown, hw, State.keys_get_setKey, if_pos rfl]
  | some x =>
    rw [State.keyDown_of_waiting hw, State.setWaiting_keys, State.setReg_keys, State.keys_get_setKey, if_pos rfl]

/-- What an operation other than KeyDown and Reset can do in a key wait: Step is refused, Tick and KeyUp leave W
alone. -/
theorem HostOp.apply_of_waiting {op : HostOp} {s : State} {x : Nibble} (hw : s.waiting = some x)
    (hkey : ∀ k, HostOp.keyDown k ≠ op) (hreset : ∀ cfg rom, HostOp.reset cfg rom ≠ op) :
    (op = .step ∧ op.apply s = .refused .heldForKey) ∨
      (op ≠ .step ∧ ∃ t, op.apply s = .next t ∧ t.waiting = some x ∧ Unchanged [.delay, .sound, .keys] s t) := by
  cases op with
  | reset cfg rom => exact absurd rfl (hreset cfg rom)
  | step => exact .inl ⟨rfl, step_of_waiting hw⟩
  | tick => exact .inr ⟨nofun, _, rfl, s.tick_waiting.trans hw, (unchanged_tick s).mono (by simp)⟩
  | keyDown k => exact absurd rfl (hkey k)
  | keyUp k => exact .inr ⟨nofun, _, rfl, (s.keyUp_waiting k).trans hw, (unchanged_keyUp s k).mono (by simp)⟩

/-- A schedule without KeyDown and Reset never leaves a key wait, so it is refused at its first Step (R197). -/
theorem HostOp.run_of_waiting {ops : List HostOp} {s : State} {x : Nibble} (hw : s.waiting = some x)
    (hkey : ∀ k, HostOp.keyDown k ∉ ops) (hreset : ∀ cfg rom, HostOp.reset cfg rom ∉ ops) :
    (HostOp.step ∈ ops → HostOp.run ops s = .refused .heldForKey) ∧
      (HostOp.step ∉ ops → ∃ t, HostOp.run ops s = .next t ∧ t.waiting = some x ∧
        Unchanged [.delay, .sound, .keys] s t) := by
  induction ops generalizing s with
  | nil => exact ⟨nofun, fun _ => ⟨s, rfl, hw, .refl _ s⟩⟩
  | cons op ops ih =>
    simp only [List.mem_cons, not_or, forall_and] at hkey hreset
    obtain ⟨hkeyOp, hkeyOps⟩ := hkey
    obtain ⟨hresetOp, hresetOps⟩ := hreset
    obtain ⟨rfl, hheld⟩ | ⟨hop, t, ht, hwt, hst⟩ := HostOp.apply_of_waiting hw hkeyOp hresetOp
    · exact ⟨fun _ => by rw [HostOp.run, hheld], fun hno => absurd List.mem_cons_self hno⟩
    · have hrun : HostOp.run (op :: ops) s = HostOp.run ops t := by rw [HostOp.run, ht]
      obtain ⟨hstep, hnoStep⟩ := ih hwt hkeyOps hresetOps
      rw [hrun, List.mem_cons, or_iff_right hop.symm]
      refine ⟨hstep, fun hno => ?_⟩
      obtain ⟨u, hu, hwu, htu⟩ := hnoStep hno
      exact ⟨u, hu, hwu, (hst.trans htu).mono (by simp)⟩

/-! ## The obligations -/

/-- Settles O52: a Step anywhere in the schedule finds W = x still, and is refused. -/
theorem onlyKeyDownEndsTheWait : Obligations.OnlyKeyDownEndsTheWait := by
  intro ops s x hw hkey hreset
  obtain ⟨hstep, hnoStep⟩ := HostOp.run_of_waiting hw hkey hreset
  refine ⟨fun hmem t ht => ?_, hnoStep⟩
  rw [hstep hmem] at ht
  cases ht

/-- Settles O46: each body sets one part, and the sound output is on while ST is not 0. -/
theorem timerReadsAndWrites : Obligations.TimerReadsAndWrites := fun x s =>
  ⟨Instr.hasWord_of_and (layoutRegByte_subop 0xF x 0x07), Instr.hasWord_of_and (layoutRegByte_subop 0xF x 0x15),
    Instr.hasWord_of_and (layoutRegByte_subop 0xF x 0x18), exec_setReg rfl rfl,
    ⟨_, rfl, s.setDt_dt _, unchanged_setDt s _⟩,
    ⟨_, rfl, s.setSt_st _, State.soundOut_iff _, unchanged_setSt s _⟩⟩

/-- Settles O48: the body sets W alone, so the next KeyDown finds W = x, and until then Step is refused. -/
theorem keyWaitStoresTheNextKey : Obligations.KeyWaitStoresTheNextKey := by
  intro x s
  have hw : (s.setWaiting (some x)).waiting = some x := s.setWaiting_waiting _
  refine ⟨Instr.hasWord_of_and (layoutRegByte_subop 0xF x 0x0A), s.setWaiting (some x), rfl, hw,
    unchanged_setWaiting s _, fun u hu => ?_, (State.tick_waiting _).trans hw, timerDown_toNat s.dt,
    timerDown_toNat s.st, fun k => (State.keyUp_waiting _ k).trans hw, fun k => ?_⟩
  · rw [step_of_waiting hw] at hu
    cases hu
  · obtain ⟨-, -, -, -, -, hpc, -⟩ := keyDown_frame (s.setWaiting (some x)) k
    exact ⟨State.reg_keyDown_of_waiting hw k, keyDown_waiting _ k, State.keys_get_keyDown_self _ k, hpc⟩

end Sys2Proof.Machine
end

section
/-! PROOFS. Tick, KeyDown, KeyUp and the sound output (spec/60_exceptions.md R220, R222 to R224). -/
namespace Sys2Proof.Machine

/-! ## The two cases of KeyDown (R222) -/

/-- With no key wait, KeyDown presses its key and does no more. -/
theorem State.keyDown_of_not_waiting {s : State} (hw : s.waiting = none) (k : Nibble) :
    s.keyDown k = s.setKey k true := by
  rw [State.keyDown, hw]

theorem State.keys_get_keyDown (s : State) (k j : Nibble) :
    (s.keyDown k).keys.get j = if j = k then true else s.keys.get j := by
  cases hw : s.waiting with
  | none => rw [State.keyDown_of_not_waiting hw, State.keys_get_setKey]
  | some x => rw [State.keyDown_of_waiting hw, State.setWaiting_keys, State.setReg_keys, State.keys_get_setKey]

theorem State.regsUnchangedBut_keyDown_of_waiting {s : State} {x : Nibble} (hw : s.waiting = some x) (k : Nibble) :
    RegsUnchangedBut [x] s (s.keyDown k) := by
  intro y hy
  rw [State.keyDown_of_waiting hw, State.reg_setWaiting, State.reg_setReg_of_ne _ _ (List.ne_of_not_mem_cons hy),
    State.reg_setKey]

theorem unchanged_keyDown (s : State) (k : Nibble) : Unchanged [.keys, .waiting, .regs] s (s.keyDown k) := by
  cases hw : s.waiting with
  | none =>
    rw [State.keyDown_of_not_waiting hw]
    exact (unchanged_setKey s k true).mono (by simp)
  | some x =>
    rw [State.keyDown_of_waiting hw]
    exact (((unchanged_setKey s k true).trans (unchanged_setReg _ x _)).trans (unchanged_setWaiting _ none)).mono
      (by simp)

/-! ## The obligations -/

/-- Settles O49: Tick is total, and each timer it writes is the truncated predecessor of the one it was. -/
theorem tickCountsTimersDown : Obligations.TickCountsTimersDown := fun s =>
  ⟨s.tick, rfl, timerDown_toNat s.dt, timerDown_toNat s.st, unchanged_tick s⟩

/-- Settles O50: both operations are total; KeyDown writes a register only in a key wait, and that one alone. -/
theorem keyDownAndKeyUp : Obligations.KeyDownAndKeyUp := by
  intro k s
  refine ⟨⟨s.keyDown k, rfl, s.keys_get_keyDown k, keyDown_waiting s k, fun x hw => ?_, fun hw x => ?_,
    unchanged_keyDown s k⟩, ⟨s.keyUp k, rfl, fun j => s.keys_get_setKey k j false, unchanged_keyUp s k⟩⟩
  · exact ⟨State.reg_keyDown_of_waiting hw k, State.regsUnchangedBut_keyDown_of_waiting hw k⟩
  · rw [State.keyDown_of_not_waiting hw, State.reg_setKey]

/-- Settles O51: the output is the decision of `ST > 0` itself. -/
theorem soundOutputIsStNonzero : Obligations.SoundOutputIsStNonzero := by
  intro s
  rw [State.soundOut, decide_eq_true_iff]

end Sys2Proof.Machine
end

section
/-! PROOFS. The parameters over Reset and over a schedule (spec/70_reset_and_hazards.md R246). -/
namespace Sys2Proof.Machine

/-! ## What Reset and a schedule answer (R221, R243 to R245) -/

/-- A Reset that answers a state placed the ROM over the initial state. -/
theorem eq_of_resetWith_next {cfg : Params} {rom : List Byte} {t : State} (h : State.resetWith cfg rom = .next t) :
    t = State.loadBytes rom cfg.loadAddr.toNat (State.initial cfg) := by
  obtain hfit | hlong := le_or_gt rom.length (memSize - cfg.loadAddr.toNat)
  · rw [resetWith_of_le hfit] at h
    exact (Host.Outcome.next.inj h).symm
  · rw [resetWith_of_gt hlong] at h
    cases h

/-- A schedule answers a state where its first operation and then the rest do. -/
theorem HostOp.run_cons_eq_next {op : HostOp} {ops : List HostOp} {s u : State} :
    HostOp.run (op :: ops) s = .next u ↔ ∃ t, op.apply s = .next t ∧ HostOp.run ops t = .next u := by
  rw [HostOp.run]
  cases op.apply s <;> simp

/-! ## The parameters -/

theorem resetWith_cfg {cfg : Params} {rom : List Byte} {t : State} (h : State.resetWith cfg rom = .next t) :
    t.cfg = cfg := by
  rw [eq_of_resetWith_next h, State.loadBytes_cfg, State.initial]

theorem step_cfg {s t : State} (h : step s = .next t) : t.cfg = s.cfg := by
  obtain ⟨-, ⟨i, -, hexec⟩ | ⟨-, rfl⟩⟩ := step_cases h
  · exact (exec_cfg hexec).trans s.nextWord_cfg
  · exact s.nextWord_cfg

@[simp] theorem State.tick_cfg (s : State) : s.tick.cfg = s.cfg := rfl
@[simp] theorem State.keyDown_cfg (s : State) (k : Nibble) : (s.keyDown k).cfg = s.cfg := (keyDown_frame s k).1
@[simp] theorem State.keyUp_cfg (s : State) (k : Nibble) : (s.keyUp k).cfg = s.cfg := rfl

/-- Reset is the one operation that can change the parameters (R246). -/
theorem HostOp.apply_cfg {op : HostOp} {s t : State} (hreset : ∀ cfg rom, HostOp.reset cfg rom ≠ op)
    (h : op.apply s = .next t) : t.cfg = s.cfg := by
  cases op with
  | reset cfg rom => exact absurd rfl (hreset cfg rom)
  | step => exact step_cfg h
  | tick =>
    cases h
    exact s.tick_cfg
  | keyDown k =>
    cases h
    exact s.keyDown_cfg k
  | keyUp k =>
    cases h
    exact s.keyUp_cfg k

theorem HostOp.run_cfg {ops : List HostOp} {s t : State} (hreset : ∀ cfg rom, HostOp.reset cfg rom ∉ ops)
    (h : HostOp.run ops s = .next t) : t.cfg = s.cfg := by
  induction ops generalizing s with
  | nil =>
    cases h
    rfl
  | cons op ops ih =>
    simp only [List.mem_cons, not_or, forall_and] at hreset
    obtain ⟨hresetOp, hresetOps⟩ := hreset
    obtain ⟨u, hu, hrun⟩ := HostOp.run_cons_eq_next.1 h
    exact (ih hresetOps hrun).trans (HostOp.apply_cfg hresetOp hu)

/-! ## The obligation -/

/-- Settles O15: placing the ROM leaves the parameters of the initial state alone, and so does every operation of a
schedule but Reset. -/
theorem parametersAreFixedAtReset : Obligations.ParametersAreFixedAtReset :=
  ⟨fun _ _ _ => resetWith_cfg, fun _ _ _ => HostOp.run_cfg⟩

end Sys2Proof.Machine
end

section
/-! PROOFS. The encoder and the decode function are inverse (spec/30_encoding.md R72 to R76). -/
namespace Sys2Proof

/-- Settles O1: the decode function reads back each field that the layout wrote. -/
theorem decodeAfterEncodeIsIdentity : Obligations.DecodeAfterEncodeIsIdentity := decode_encode

/-- Settles O2: each arm of the decode function keeps every field of the word under the layout of its group. -/
theorem encodeAfterDecodeIsIdentity : Obligations.EncodeAfterDecodeIsIdentity := fun _ _ => encode_of_decode

/-- Settles O6: each word is the encoding of the instruction it stands for, which the decode function reads back. -/
theorem sampleWordsDecode : Obligations.SampleWordsDecode :=
  ⟨decode_encode .ret, decode_encode (.call 0x301), decode_encode (.seImm 0xA 0x3C), decode_encode (.addReg 0x1 0xF),
    decode_encode (.rnd 0x3 0x0F), decode_encode (.ldBVx 0x5), decode_encode (.drw 0x1 0x2 0x5),
    decode_encode (.sknp 0x1), decode_encode (.ldVxK 0x3)⟩

end Sys2Proof
end

section
/-! PROOFS. The invariant over Reset, a step and a schedule (spec/10_state.md section 9). -/
namespace Sys2Proof.Machine

/-! ## The invariant under the operations that reach a part it speaks of -/

/-- The invariant speaks of the parameters, the stack, SP and memory alone. -/
theorem State.Inv.congr {s t : State} (hs : s.Inv) (hcfg : t.cfg = s.cfg) (hstack : t.stack = s.stack)
    (hsp : t.sp = s.sp) (hmem : t.mem = s.mem) : t.Inv := by
  rwa [State.Inv, hcfg, hstack, hsp, hmem]

theorem State.Inv.stackDepth_pos {s : State} (hs : s.Inv) : 0 < s.cfg.stackDepth := by
  obtain ⟨-, -, hsp, -⟩ := hs
  exact Nat.zero_lt_of_lt hsp

theorem State.Inv.push {s : State} (hs : s.Inv) (a : Addr) : (s.push a).Inv := by
  have hsp := s.push_sp_lt a hs.stackDepth_pos
  obtain ⟨hcfg, hlen, -, hwf⟩ := hs
  exact ⟨hcfg, List.length_set.trans hlen, hsp, hwf⟩

theorem State.Inv.popPc {s : State} (hs : s.Inv) : s.popPc.Inv := by
  have hsp := s.popPc_sp_lt hs.stackDepth_pos
  obtain ⟨hcfg, hlen, -, hwf⟩ := hs
  exact ⟨hcfg, hlen, hsp, hwf⟩

theorem State.Inv.loadBytes {s : State} (hs : s.Inv) (bs : List Byte) (a : Nat) : (State.loadBytes bs a s).Inv := by
  obtain ⟨hcfg, hlen, hsp, hwf⟩ := hs
  simp only [State.Inv, State.loadBytes_cfg, State.loadBytes_stack, State.loadBytes_sp]
  exact ⟨hcfg, hlen, hsp, State.loadBytes_wf bs a hwf⟩

theorem State.Inv.storeRegs {s : State} (hs : s.Inv) (n : Nat) : (s.storeRegs n).Inv := by
  obtain ⟨hcfg, hlen, hsp, hwf⟩ := hs
  simp only [State.Inv, State.storeRegs_cfg, State.storeRegs_stack, State.storeRegs_sp]
  exact ⟨hcfg, hlen, hsp, State.storeRegs_wf hwf n⟩

/-- The initial state of legal parameters: STACK_DEPTH slots, SP = 0, and no listed cell (R36). -/
theorem State.initial_inv {cfg : Params} (hcfg : cfg.wellFormed = true) : (State.initial cfg).Inv := by
  have hdepth : 12 ≤ cfg.stackDepth ∧ cfg.stackDepth ≤ 16 := by simpa [Params.wellFormed] using hcfg
  exact ⟨hcfg, List.length_replicate, Nat.zero_lt_of_lt hdepth.1, Memory.wf_nil⟩

/-! ## Every operation keeps it -/

/-- A body reaches the stack only by a push or a pop, and memory only by the stores of Fx33 and Fx55. -/
theorem exec_inv {i : Instr} {s t : State} (hs : s.Inv) (h : exec i s = .next t) : t.Inv := by
  cases i
  case ret =>
    cases h
    exact hs.popPc
  case call =>
    cases h
    exact hs.push s.pc
  case ldBVx x =>
    rw [exec_ldBVx] at h
    cases h
    exact hs.loadBytes _ _
  case ldMemVx x =>
    cases h
    exact hs.storeRegs _
  case rnd =>
    cases h
    exact hs
  all_goals
    cases h
    exact hs.congr (by simp) (by simp) (by simp) (by simp)

theorem step_inv {s t : State} (hs : s.Inv) (h : step s = .next t) : t.Inv := by
  have hnext : s.nextWord.Inv := hs
  obtain ⟨-, ⟨i, -, hexec⟩ | ⟨-, rfl⟩⟩ := step_cases h
  · exact exec_inv hnext hexec
  · exact hnext

theorem State.Inv.keyDown {s : State} (hs : s.Inv) (k : Nibble) : (s.keyDown k).Inv := by
  obtain ⟨hcfg, hstack, hsp, hmem, -⟩ := keyDown_frame s k
  exact hs.congr hcfg hstack hsp hmem

theorem HostOp.apply_inv {op : HostOp} {s t : State} (hs : s.Inv)
    (hreset : ∀ cfg rom, HostOp.reset cfg rom = op → cfg.wellFormed = true) (h : op.apply s = .next t) : t.Inv := by
  cases op with
  | reset cfg rom =>
    rw [eq_of_resetWith_next h]
    exact (State.initial_inv (hreset cfg rom rfl)).loadBytes _ _
  | step => exact step_inv hs h
  | tick =>
    cases h
    exact hs
  | keyDown k =>
    cases h
    exact hs.keyDown k
  | keyUp k =>
    cases h
    exact hs

/-! ## The obligations -/

/-- Settles O12: a step is a body, or nothing, after the advance of pc. -/
theorem everyStepKeepsTheInvariant : Obligations.EveryStepKeepsTheInvariant := fun _ _ => step_inv

/-- Settles O14: the invariant goes from each operation of the schedule to the next. -/
theorem everyScheduleKeepsTheInvariant : Obligations.EveryScheduleKeepsTheInvariant := by
  intro ops
  induction ops with
  | nil =>
    rintro s t hs - h
    cases h
    exact hs
  | cons op ops ih =>
    intro s u hs hreset h
    obtain ⟨t, ht, hrun⟩ := HostOp.run_cons_eq_next.1 h
    have hfirst : ∀ cfg rom, HostOp.reset cfg rom = op → cfg.wellFormed = true := fun cfg rom heq =>
      hreset cfg rom (heq ▸ List.mem_cons_self)
    exact ih t u (HostOp.apply_inv hs hfirst ht) (fun cfg rom hmem => hreset cfg rom (List.mem_cons_of_mem _ hmem)) hrun

/-- Settles O13: the reset state is the initial state of the default parameters, which are legal. -/
theorem resetMeetsTheInvariant : Obligations.ResetMeetsTheInvariant := State.initial_inv (by decide)

/-- Settles O54: Reset places no byte over the initial state, whose memory is its reset content. -/
theorem resetStateIsTheEmptyLoad : Obligations.ResetStateIsTheEmptyLoad := by
  have hbase : Params.default.fontBase.toNat = 0 := rfl
  refine ⟨resetWith_of_le (Nat.zero_le _), rfl, rfl, fun k => ?_, fun a hfont ha => ?_⟩
  · have hk := initByte_font Params.default k.isLt
    rw [hbase, Nat.zero_add] at hk
    rw [State.reset, State.memRead_initial, hk]
    rfl
  · rw [State.reset, State.memRead_initial, Nat.mod_eq_of_lt ha]
    refine initByte_zero ha (fun k hk => ?_) rfl
    rw [hbase]
    simp only [memSize]
    omega

end Sys2Proof.Machine
end

section
/-! PROOFS. Which operation can change which part of the state (spec/10_state.md sections 4, 6 and 7,
spec/20_memory.md section 4). -/
namespace Sys2Proof

/-- The parts of the state that the body of an instruction can change. -/
def Instr.parts : Instr → List Machine.Part
  | .cls => [.display]
  | .ret => [.pc, .sp]
  | .call _ => [.pc, .sp, .stack]
  | .jp _ | .jpV0 _ | .seImm _ _ | .sneImm _ _ | .seReg _ _ | .sneReg _ _ => [.pc]
  | .ldImm _ _ | .addImm _ _ | .ldReg _ _ | .or _ _ | .and _ _ | .xor _ _ | .addReg _ _ | .sub _ _ | .shr _ _
  | .subn _ _ | .shl _ _ | .ldVxDt _ => [.regs]
  | .rnd _ _ => [.regs, .draws]
  | .drw _ _ _ => [.display, .regs]
  | .skp _ | .sknp _ => [.draws, .pc]
  | .ldVxK _ => [.waiting]
  | .ldDtVx _ => [.delay]
  | .ldStVx _ => [.sound]
  | .ldI _ | .ldFVx _ => [.index]
  | .addIVx _ => [.index, .regs]
  | .ldBVx _ => [.memory]
  | .ldMemVx _ => [.memory, .index]
  | .ldVxMem _ => [.regs, .index]

namespace Machine

/-! ## Which instructions can change a part -/

theorem memory_mem_parts {i : Instr} : Part.memory ∈ i.parts ↔ ∃ x, i = .ldBVx x ∨ i = .ldMemVx x := by
  cases i <;> simp [Instr.parts]

theorem display_mem_parts {i : Instr} : Part.display ∈ i.parts ↔ i = .cls ∨ ∃ x y n, i = .drw x y n := by
  cases i <;> simp [Instr.parts]

theorem stack_mem_parts {i : Instr} : Part.stack ∈ i.parts ↔ ∃ nnn, i = .call nnn := by
  cases i <;> simp [Instr.parts]

theorem sp_mem_parts {i : Instr} : Part.sp ∈ i.parts ↔ i = .ret ∨ ∃ nnn, i = .call nnn := by
  cases i <;> simp [Instr.parts]

theorem waiting_mem_parts {i : Instr} : Part.waiting ∈ i.parts ↔ ∃ x, i = .ldVxK x := by
  cases i <;> simp [Instr.parts]

theorem keys_not_mem_parts (i : Instr) : Part.keys ∉ i.parts := by
  cases i <;> simp [Instr.parts]

/-! ## What a body and an operation leave unchanged -/

theorem unchanged_countDraw (s : State) : Unchanged [.draws] s s.countDraw := by
  intro p hp
  cases p
  case draws => simp at hp
  all_goals simp [Part.Same]

theorem unchanged_afterKeyTest (s : State) (k : Byte) : Unchanged [.draws] s (s.afterKeyTest k) := by
  unfold State.afterKeyTest
  split
  · exact unchanged_countDraw s
  · exact .refl _ s

/-- A body changes no other part than those listed for its instruction. -/
theorem exec_unchanged {i : Instr} {s t : State} (h : exec i s = .next t) : Unchanged i.parts s t := by
  cases i <;> cases h
  case cls => exact unchanged_setDisplay s _
  case ret => exact unchanged_popPc s
  case call => exact unchanged_push_setPc s _ _
  case jp | jpV0 => exact unchanged_setPc s _
  case seImm | sneImm | seReg | sneReg => exact unchanged_skipIf s _
  case ldImm | addImm | ldReg | or | and | xor | ldVxDt => exact unchanged_setReg s _ _
  case addReg | sub | shr | subn | shl => exact unchanged_setRegFlag s _ _ _
  case rnd => exact (unchanged_setReg s _ _).trans (unchanged_countDraw _)
  case drw => exact (unchanged_setDisplay s _).trans (unchanged_setReg _ vf _)
  case skp | sknp => exact (unchanged_afterKeyTest s _).trans (unchanged_skipIf _ _)
  case ldVxK => exact unchanged_setWaiting s _
  case ldDtVx => exact unchanged_setDt s _
  case ldStVx => exact unchanged_setSt s _
  case ldI | ldFVx => exact unchanged_setI s _
  case addIVx => exact (unchanged_setI s _).trans (unchanged_setReg _ vf _)
  case ldBVx => exact unchanged_loadBytes s (bcdDigits _) _
  case ldMemVx => exact (unchanged_storeRegs s _).trans (unchanged_setI _ _)
  case ldVxMem => exact (unchanged_loadRegs s _).trans (unchanged_setI _ _)

/-- The frame of an operation other than Reset, but for pc: a part that it changes is one its body, its timers or its
key reach. -/
theorem HostOp.apply_changed_part {op : HostOp} {s t : State} {p : Part} (hreset : ∀ cfg rom, op ≠ .reset cfg rom)
    (h : op.apply s = .next t) (hpc : p ≠ .pc) (hp : ¬p.Same s t) :
    (op = .step ∧ ∃ i, decode s.fetch = .instr i ∧ p ∈ i.parts ∧ exec i s.nextWord = .next t) ∨
      (op = .tick ∧ p ∈ [.delay, .sound]) ∨ (∃ k, op = .keyDown k ∧ p ∈ [.keys, .waiting, .regs]) ∨
      ∃ k, op = .keyUp k ∧ p ∈ [.keys] := by
  have hreached : ∀ {changed}, Unchanged changed s t → p ∈ changed := fun hframe => not_imp_comm.1 (hframe p) hp
  cases op with
  | reset cfg rom => exact absurd rfl (hreset cfg rom)
  | step =>
    have hadvance : Unchanged [.pc] s s.nextWord := unchanged_setPc s _
    obtain ⟨-, ⟨i, hi, hexec⟩ | ⟨-, rfl⟩⟩ := step_cases h
    · have hmem := hreached (hadvance.trans (exec_unchanged hexec))
      exact .inl ⟨rfl, i, hi, (List.mem_cons.1 hmem).resolve_left hpc, hexec⟩
    · exact absurd (List.mem_singleton.1 (hreached hadvance)) hpc
  | tick =>
    cases h
    exact .inr (.inl ⟨rfl, hreached (unchanged_tick s)⟩)
  | keyDown k =>
    cases h
    exact .inr (.inr (.inl ⟨k, rfl, hreached (unchanged_keyDown s k)⟩))
  | keyUp k =>
    cases h
    exact .inr (.inr (.inr ⟨k, rfl, hreached (unchanged_keyUp s k)⟩))

/-- An operation other than Reset that changes a part which the timers and the keys do not reach is a step of an
instruction whose body does. -/
theorem HostOp.apply_changed_part_of_step {op : HostOp} {s t : State} {p : Part}
    (hreset : ∀ cfg rom, op ≠ .reset cfg rom) (h : op.apply s = .next t)
    (hhost : p ∉ [.pc, .delay, .sound, .keys, .waiting, .regs]) (hp : ¬p.Same s t) :
    op = .step ∧ ∃ i, decode s.fetch = .instr i ∧ p ∈ i.parts ∧ exec i s.nextWord = .next t := by
  simp only [List.mem_cons, not_or] at hhost
  obtain ⟨hpc, hdelay, hsound, hkeys, hwaiting, hregs, -⟩ := hhost
  obtain hstep | htick | hkeyDown | hkeyUp := HostOp.apply_changed_part hreset h hpc hp
  · exact hstep
  · simp [hdelay, hsound] at htick
  · simp [hkeys, hwaiting, hregs] at hkeyDown
  · simp [hkeys] at hkeyUp

/-! ## The bytes of a store (R55, R60) -/

/-- A byte that Fx33 changes is one of its three. -/
theorem exec_ldBVx_changed_byte {x : Nibble} {s t : State} {a : Nat} (h : exec (.ldBVx x) s = .next t)
    (ha : t.memRead a ≠ s.memRead a) : ∃ k < 3, a % memSize = (s.i.toNat + k) % memSize := by
  by_contra! hno
  rw [exec_ldBVx] at h
  cases h
  exact ha (s.memRead_loadBytes_outside _ hno)

/-- A byte that Fx55 changes is one of its x + 1. -/
theorem exec_ldMemVx_changed_byte {x : Nibble} {s t : State} {a : Nat} (h : exec (.ldMemVx x) s = .next t)
    (ha : t.memRead a ≠ s.memRead a) : ∃ k < x.val + 1, a % memSize = (s.i.toNat + k) % memSize := by
  by_contra! hno
  cases h
  exact ha (s.memRead_storeRegs_outside hno)

/-! ## The obligations -/

/-- Settles O17: the two bodies that can change memory each change only the bytes they store. -/
theorem onlyStoresWriteMemory : Obligations.OnlyStoresWriteMemory := by
  intro op s t a hreset h ha
  have hp : ¬Part.memory.Same s t := fun hsame => ha (hsame a)
  obtain ⟨rfl, i, hi, hmem, hexec⟩ := HostOp.apply_changed_part_of_step hreset h (by decide) hp
  refine ⟨rfl, ?_⟩
  obtain ⟨x, rfl | rfl⟩ := memory_mem_parts.1 hmem
  · obtain ⟨k, hk, hak⟩ := exec_ldBVx_changed_byte hexec ha
    exact ⟨x, k, hak, .inl ⟨hi, hk⟩⟩
  · obtain ⟨k, hk, hak⟩ := exec_ldMemVx_changed_byte hexec ha
    exact ⟨x, k, hak, .inr ⟨hi, hk⟩⟩

/-- Settles O18: of all bodies only those of 00E0 and Dxyn reach the display. -/
theorem onlyClearAndDrawChangeTheDisplay : Obligations.OnlyClearAndDrawChangeTheDisplay := by
  intro op s t hreset h hd
  obtain ⟨rfl, i, hi, hmem, -⟩ := HostOp.apply_changed_part_of_step (p := .display) hreset h (by decide) hd
  refine ⟨rfl, ?_⟩
  obtain rfl | ⟨x, y, n, rfl⟩ := display_mem_parts.1 hmem
  · exact .inl hi
  · exact .inr ⟨x, y, n, hi⟩

/-- Settles O19: of all bodies only that of 2nnn reaches a slot, and only those of 2nnn and 00EE reach SP. -/
theorem onlyCallAndReturnReachTheStack : Obligations.OnlyCallAndReturnReachTheStack := by
  refine fun op s t hreset h => ⟨fun hstack => ?_, fun hsp => ?_⟩
  · obtain ⟨rfl, i, hi, hmem, -⟩ := HostOp.apply_changed_part_of_step (p := .stack) hreset h (by decide) hstack
    obtain ⟨nnn, rfl⟩ := stack_mem_parts.1 hmem
    exact ⟨rfl, nnn, hi⟩
  · obtain ⟨rfl, i, hi, hmem, -⟩ := HostOp.apply_changed_part_of_step (p := .sp) hreset h (by decide) hsp
    obtain rfl | ⟨nnn, rfl⟩ := sp_mem_parts.1 hmem
    · exact ⟨rfl, .inl hi⟩
    · exact ⟨rfl, .inr ⟨nnn, hi⟩⟩

/-- Settles O20: no body reaches K, and only that of Fx0A reaches W; Tick reaches neither, and KeyUp only K. -/
theorem keypadChangesOnlyByHostOrKeyWait : Obligations.KeypadChangesOnlyByHostOrKeyWait := by
  refine fun op s t hreset h => ⟨fun hkeys => ?_, fun hwaiting => ?_⟩
  · obtain ⟨-, i, -, hmem, -⟩ | ⟨-, hmem⟩ | ⟨k, hk, -⟩ | ⟨k, hk, -⟩ :=
      HostOp.apply_changed_part (p := .keys) hreset h nofun hkeys
    · exact absurd hmem (keys_not_mem_parts i)
    · simp at hmem
    · exact ⟨k, .inl hk⟩
    · exact ⟨k, .inr hk⟩
  · obtain ⟨hop, i, hi, hmem, hexec⟩ | ⟨-, hmem⟩ | ⟨k, rfl, -⟩ | ⟨k, -, hmem⟩ :=
      HostOp.apply_changed_part (p := .waiting) hreset h nofun hwaiting
    · obtain ⟨x, rfl⟩ := waiting_mem_parts.1 hmem
      cases hexec
      exact .inl ⟨x, hop, hi, rfl⟩
    · simp at hmem
    · cases h
      exact .inr ⟨k, rfl, keyDown_waiting s k⟩
    · simp at hmem

end Machine
end Sys2Proof
end

section
/-! PROOFS. The word a step fetches, and memory as data (spec/20_memory.md sections 1, 2 and 7). -/
namespace Sys2Proof

/-- A table word of 16 bits decodes as the word itself does: its two bytes are those of the opcode (R52). -/
theorem decode_tableOpcode {w : Nat} {i : Instr} (h : decodeTableWord 16 w = some i) :
    decode (tableOpcode 16 w) = .instr i := by
  rw [decodeTableWord, decodeBytes, opcodeOfBytes_split] at h
  cases hd : decode (tableOpcode 16 w) with
  | instr j =>
    rw [hd] at h
    exact congrArg Decoded.instr (Option.some.inj h)
  | noop g =>
    rw [hd] at h
    cases h

namespace Machine

/-! ## Storing a word at pc, and fetching it (R52, R53) -/

/-- Addresses pc and pc + 1 are distinct mod 4096, so the two stored bytes are the two fetched. -/
theorem State.fetch_storeOpcode {s : State} (hs : s.Inv) (o : Opcode) : (s.storeOpcode o).fetch = o := by
  obtain ⟨-, -, -, hwf⟩ := hs
  have hhigh : (s.storeOpcode o).memRead s.pc.toNat = o.extractLsb' 8 8 := by
    have hne : s.pc.toNat % memSize ≠ (s.pc.toNat + 1) % memSize := by
      simp only [memSize]
      omega
    rw [State.storeOpcode, State.memRead_memWrite_of_ne _ _ hne, State.memRead_memWrite hwf, if_pos rfl]
  have hlow : (s.storeOpcode o).memRead (s.pc.toNat + 1) = o.extractLsb' 0 8 := by
    rw [State.storeOpcode, State.memRead_memWrite (State.memWrite_wf hwf _ _), if_pos rfl]
  calc (s.storeOpcode o).fetch
    _ = opcodeOfBytes (o.extractLsb' 8 8) (o.extractLsb' 0 8) := congrArg₂ opcodeOfBytes hhigh hlow
    _ = o := opcodeOfBytes_split o

/-! ## The bytes of the fetched word, as numbers (R53) -/

/-- A byte is the high one of the next fetch where its address is pc, and the low one where it is pc + 1. -/
theorem State.fetch_bytes_of_memRead {s : State} {a n : Nat} (h : (s.memRead a).toNat = n) :
    (s.pc.toNat = a → s.fetch.toNat / 256 = n) ∧ ((s.pc.toNat + 1) % 4096 = a → s.fetch.toNat % 256 = n) := by
  have hlow := (s.memRead ((s.pc.toNat + 1) % 4096)).isLt
  rw [fetchIsBigEndianAndWraps s]
  constructor
  · rintro rfl
    omega
  · rintro rfl
    omega

/-- Digit `j` that Fx33 stores is the decimal digit of weight 10^(2 - j) (R155). -/
theorem bcdDigits_toNat (v : Byte) (j : Fin 3) :
    ((bcdDigits v)[j.val]'j.isLt).toNat = v.toNat / 10 ^ (2 - j.val) % 10 := by
  have hlt := v.isLt
  match j with
  | 0 =>
    refine (bcdHundreds_toNat v).trans ?_
    simp only [Fin.val_zero]
    omega
  | 1 => exact bcdTens_toNat v
  | 2 => exact (bcdUnits_toNat v).trans (by simp)

/-! ## Canonical memory (R50, log 8) -/

/-- The first listed address reads apart from any memory whose list starts above it. -/
theorem Memory.read_head_ne {cfg : Params} {lo : Option Nat} {a : Nat} {v : Byte} {m m' : Memory}
    (h : Memory.wfFrom cfg lo ((a, v) :: m) = true) (h' : Memory.wfFrom cfg (some a) m' = true) :
    Memory.read cfg ((a, v) :: m) a ≠ Memory.read cfg m' a := by
  obtain ⟨-, -, hv, -⟩ := Memory.wfFrom_cons.1 h
  rw [Memory.read_of_not_below h' le_rfl, Memory.read, if_pos rfl]
  exact hv

/-- Any address below the first listed one is a lower bound. -/
theorem Memory.wfFrom_some_of_lt_head {cfg : Params} {lo : Option Nat} {a b : Nat} {v : Byte} {m : Memory}
    (hab : a < b) (h : Memory.wfFrom cfg lo ((b, v) :: m) = true) : Memory.wfFrom cfg (some a) ((b, v) :: m) = true := by
  obtain ⟨-, hrest⟩ := Memory.wfFrom_cons.1 h
  exact Memory.wfFrom_cons.2 ⟨fun _ ha => by cases ha; exact hab, hrest⟩

/-- Two canonical lists over one lower bound that read the same are equal: the smaller of their first addresses would
read apart, so the first cells agree, and below them the rests read as their reset content. -/
theorem Memory.eq_of_read_eq {cfg : Params} {m₁ m₂ : Memory} {lo : Option Nat} (h₁ : Memory.wfFrom cfg lo m₁ = true)
    (h₂ : Memory.wfFrom cfg lo m₂ = true)
    (hread : ∀ a, a < memSize → Memory.read cfg m₁ a = Memory.read cfg m₂ a) : m₁ = m₂ := by
  induction m₁ generalizing m₂ lo with
  | nil =>
    cases m₂ with
    | nil => rfl
    | cons c m₂ =>
      obtain ⟨-, hb, -, -⟩ := Memory.wfFrom_cons.1 h₂
      exact absurd (hread c.1 hb).symm (Memory.read_head_ne h₂ rfl)
  | cons c₁ m₁ ih =>
    obtain ⟨a, u⟩ := c₁
    obtain ⟨-, ha, -, hrest₁⟩ := Memory.wfFrom_cons.1 h₁
    cases m₂ with
    | nil => exact absurd (hread a ha) (Memory.read_head_ne h₁ rfl)
    | cons c₂ m₂ =>
      obtain ⟨b, v⟩ := c₂
      obtain ⟨-, hb, -, hrest₂⟩ := Memory.wfFrom_cons.1 h₂
      obtain hlt | rfl | hgt := Nat.lt_trichotomy a b
      · exact absurd (hread a ha) (Memory.read_head_ne h₁ (Memory.wfFrom_some_of_lt_head hlt h₂))
      · have huv : u = v := by simpa [Memory.read] using hread a ha
        have htail : ∀ d, d < memSize → Memory.read cfg m₁ d = Memory.read cfg m₂ d := by
          intro d hd
          obtain hda | had := le_or_gt d a
          · rw [Memory.read_of_not_below hrest₁ hda, Memory.read_of_not_below hrest₂ hda]
          · simpa [Memory.read, had.ne] using hread d hd
        rw [huv, ih hrest₁ hrest₂ htail]
      · exact absurd (hread b hb).symm (Memory.read_head_ne h₂ (Memory.wfFrom_some_of_lt_head hgt h₁))

/-! ## The obligations -/

/-- Settles O11: the word is that of 1nnn with nnn = pc, whose body sets the advanced pc back. -/
theorem selfJumpIsFixedPoint : Obligations.SelfJumpIsFixedPoint := by
  intro s hw hfetch
  have hjp : decode s.fetch = .instr (.jp s.pc) := hfetch ▸ decode_encode (.jp s.pc)
  rw [step_of_instr hw hjp]
  rfl

/-- Settles O16: the stored word is the fetched one, W is none, and the step is its body with pc advanced. -/
theorem fetchWordIsWhatTheNextStepRuns : Obligations.FetchWordIsWhatTheNextStepRuns := by
  intro s w i hs hi
  have hfetch : (s.withFetchWord 16 w).fetch = tableOpcode 16 w := State.fetch_storeOpcode hs _
  exact step_of_instr rfl (hfetch ▸ decode_tableOpcode hi)

/-- Settles O55: the byte stored at I + k is the byte read there, and the fetch reads memory at pc and pc + 1. -/
theorem storesAreSeenByTheNextFetch : Obligations.StoresAreSeenByTheNextFetch := by
  refine fun x s hs => ⟨⟨_, rfl, fun k hk => State.fetch_bytes_of_memRead ?_⟩,
    ⟨_, exec_ldBVx x s, fun k => State.fetch_bytes_of_memRead ?_⟩⟩
  · rw [State.memRead_mod, State.memRead_setI, State.memRead_storeRegs_of_le hs hk]
  · rw [State.memRead_loadBytes_bcdDigits hs _ k.isLt, bcdDigits_toNat]

/-- Settles O56: canonical form has no lower bound at its start. -/
theorem canonicalMemoryIsUnique : Obligations.CanonicalMemoryIsUnique := fun _ _ _ => Memory.eq_of_read_eq

end Machine
end Sys2Proof
end

section
/-! PROOFS. The random byte, the key skips and the second draw (spec/42_register_alu.md section 5,
spec/45_timers_keypad.md section 2, spec/44_display.md section 3). -/
namespace Sys2Proof.Machine

/-! ## The key test (R195) -/

theorem State.keyIsDrawn_iff (s : State) (k : Byte) :
    s.keyIsDrawn k = true ↔ k.toNat ≥ 16 ∧ s.cfg.keyOor = .draw := by
  simp [State.keyIsDrawn, Nat.succ_le_iff]

theorem lowNibble_val (k : Byte) : (lowNibble k).val = k.toNat % 16 := nibble_val (Nat.mod_lt _ (by decide))

/-- Under MASK the key is that of the low nibble, in range too. -/
theorem State.keyTest_of_mask {s : State} (hoor : s.cfg.keyOor = .mask) (k : Byte) :
    s.keyTest k = s.keys.get (lowNibble k) := by
  simp [State.keyTest, State.key, hoor]

/-- Under DRAW the key of a code out of range is the step's draw. -/
theorem State.keyTest_of_draw {s : State} (hoor : s.cfg.keyOor = .draw) {k : Byte} (hk : k.toNat ≥ 16) :
    s.keyTest k = Config.keybit s.draws := by
  simp [State.keyTest, State.key, hoor, Nat.not_le.2 hk]

/-- The three cases of R195 are all there are. -/
theorem State.eq_keyTest {s : State} {k : Byte} {p : Bool}
    (hin : ∀ h : k.toNat < 16, p = s.keys.get ⟨k.toNat, h⟩)
    (hmask : k.toNat ≥ 16 → s.cfg.keyOor = .mask → p = s.keys.get ⟨k.toNat % 16, Nat.mod_lt _ (by decide)⟩)
    (hdraw : k.toNat ≥ 16 → s.cfg.keyOor = .draw → p = Config.keybit s.draws) : p = s.keyTest k := by
  obtain hlt | hge := Nat.lt_or_ge k.toNat 16
  · rw [State.keyTest, s.key_in_range (Nat.le_of_lt_succ hlt), hin hlt]
  · have hlow : lowNibble k = ⟨k.toNat % 16, Nat.mod_lt _ (by decide)⟩ := Fin.ext (lowNibble_val k)
    cases hoor : s.cfg.keyOor with
    | mask => rw [State.keyTest_of_mask hoor, hmask hge hoor, hlow]
    | draw => rw [State.keyTest_of_draw hoor hge, hdraw hge hoor]

/-- A body that counts the draw of the key test of `k` and skips by `c`. -/
theorem exec_keySkip {i : Instr} {s : State} {k : Byte} {c : Prop} [Decidable c]
    (h : exec i s = .next ((s.afterKeyTest k).skipIf (decide c))) :
    ∃ t, exec i s = .next t ∧ t.pc.toNat = (if c then (s.pc.toNat + 2) % 4096 else s.pc.toNat) ∧
      t.draws = (if k.toNat ≥ 16 ∧ s.cfg.keyOor = .draw then s.draws + 1 else s.draws) ∧
      Unchanged [.pc, .draws] s t := by
  refine ⟨_, h, ?_, ?_, ((unchanged_afterKeyTest s k).trans (unchanged_skipIf _ _)).mono (by simp)⟩
  · rw [State.skipIf_pc_toNat, State.afterKeyTest_pc]
  · simp only [State.skipIf_draws, State.afterKeyTest_draws, State.keyIsDrawn_iff]

/-! ## Toggling the same pixels twice (R173, R178) -/

/-- The picture comes back, and the second time a pixel is on exactly where it was off at first. -/
theorem Toggles.twice {S : Fin 32 → Fin 64 → Prop} {d e f : Fin 32 → Fin 64 → Bool} {h k l : Bool}
    (hfirst : Toggles S d e h k) (hsecond : Toggles S e f false l) :
    f = d ∧ (l = true ↔ ∃ r c, S r c ∧ d r c = false) := by
  constructor
  · funext r c
    by_cases hS : S r c
    · rw [hsecond.pixel_of_mem hS, hfirst.pixel_of_mem hS, Bool.not_not]
    · rw [hsecond.pixel_of_not_mem hS, hfirst.pixel_of_not_mem hS]
  · have hoff : ∀ r c, S r c ∧ e r c = true ↔ S r c ∧ d r c = false := fun r c =>
      and_congr_right fun hS => by rw [hfirst.pixel_of_mem hS, Bool.not_eq_true']
    simp only [hsecond.hit_iff, hoff, Bool.false_eq_true, false_or]

/-! ## The obligations -/

/-- Settles O43: both draws cover the same pixels, since a draw writes neither I nor memory. -/
theorem drawTwiceRestoresTheDisplay : Obligations.DrawTwiceRestoresTheDisplay := by
  intro x y n s
  refine ⟨_, rfl, fun hx hy => ⟨_, rfl, ?_⟩⟩
  have hn : n.val ≤ 32 := by omega
  have hfirst := s.blit_toggles (s.reg x) (s.reg y) hn
  have hsecond := State.blit_toggles
    ((s.setDisplay (s.blit (s.reg x) (s.reg y) n.val).display).setFlag (s.blit (s.reg x) (s.reg y) n.val).hit)
    (s.reg x) (s.reg y) hn
  obtain ⟨hrestored, hhit⟩ := hfirst.twice hsecond
  rw [← s.spriteByte_eq, hx, hy]
  refine ⟨fun r c => congrFun₂ hrestored r c, fun hoff => ?_, fun hoff => ?_⟩
  · rw [State.reg_vf_setFlag, hhit.2 hoff]; rfl
  · rw [State.reg_vf_setFlag, Bool.eq_false_iff.2 (mt hhit.1 hoff)]; rfl

/-- Settles O47: both bodies skip by the same key, Ex9E where it is pressed and ExA1 where it is not. -/
theorem keySkipsFollowTheKey : Obligations.KeySkipsFollowTheKey := by
  intro x s p hin hmask hdraw
  obtain rfl := State.eq_keyTest hin hmask hdraw
  refine ⟨Instr.hasWord_of_and (layoutRegByte_subop 0xE x 0x9E),
    Instr.hasWord_of_and (layoutRegByte_subop 0xE x 0xA1), exec_keySkip ?_, exec_keySkip ?_⟩
  · rw [Bool.decide_eq_true]
    rfl
  · rw [Bool.decide_eq_false]
    rfl

/-- Settles O33: the body sets V[x] to the masked draw and counts the draw. -/
theorem randomByteIsMasked : Obligations.RandomByteIsMasked := fun x kk s =>
  ⟨Instr.hasWord_of_and (layoutRegByte_group 0xC x kk), _, rfl, s.reg_setReg_self x _,
    exec_regsUnchangedBut_writes (i := .rnd x kk) rfl, rfl, (unchanged_setReg s x _).trans (unchanged_countDraw _)⟩

end Sys2Proof.Machine
end

section
/-! PROOFS. The V register ports (spec/10_state.md R23). -/
namespace Sys2Proof.Machine

/-! ## Writes of registers against one another (R12) -/

theorem State.setReg_setReg_self (s : State) (r : Nibble) (b c : Byte) : (s.setReg r b).setReg r c = s.setReg r c := by
  simp [State.setReg]

theorem State.setReg_comm (s : State) {r x : Nibble} (h : r ≠ x) (b c : Byte) :
    (s.setReg r b).setReg x c = (s.setReg x c).setReg r b := by
  have hval : r.val ≠ x.val := fun heq => h (Fin.ext heq)
  simp [State.setReg, Vector.set_comm _ _ hval]

/-! ## Two states that agree but for one register -/

/-- `u` is `t` with `b` in V[r], or `t` itself where `r` is one of the registers `written` in both. -/
structure AgreeBut (r : Nibble) (b : Byte) (written : List Nibble) (t u : State) : Prop where
  eq_of_mem : r ∈ written → u = t
  eq_setReg_of_not_mem : r ∉ written → u = t.setReg r b

section
variable {r : Nibble} {b : Byte} {written : List Nibble} {t u : State}

theorem AgreeBut.refl : AgreeBut r b [] t (t.setReg r b) := ⟨nofun, fun _ => rfl⟩

theorem AgreeBut.congr {written' : List Nibble} (h : AgreeBut r b written t u) (hw : r ∈ written ↔ r ∈ written') :
    AgreeBut r b written' t u :=
  ⟨fun hmem => h.eq_of_mem (hw.2 hmem), fun hno => h.eq_setReg_of_not_mem (mt hw.1 hno)⟩

/-- A register written with one byte in both states is one more that they agree on. -/
theorem AgreeBut.setReg (h : AgreeBut r b written t u) (x : Nibble) (c : Byte) :
    AgreeBut r b (written ++ [x]) (t.setReg x c) (u.setReg x c) := by
  by_cases hw : r ∈ written
  · rw [h.eq_of_mem hw]
    exact ⟨fun _ => rfl, fun hno => absurd (List.mem_append_left _ hw) hno⟩
  · rw [h.eq_setReg_of_not_mem hw]
    refine ⟨fun hmem => ?_, fun hno => State.setReg_comm t (fun hrx => hno (by simp [hrx])) b c⟩
    obtain rfl : r = x := by simpa [hw] using hmem
    exact State.setReg_setReg_self t r b c

theorem AgreeBut.setRegFlag (h : AgreeBut r b written t u) (x : Nibble) (c : Byte) (f : Bool) :
    AgreeBut r b (written ++ [x] ++ [vf]) (t.setRegFlag x c f) (u.setRegFlag x c f) :=
  (h.setReg x c).setReg vf (flagByte f)

end

/-! ## The operations that take a state with another V[r] -/

section
variable (s : State) (r : Nibble) (b : Byte)

theorem State.skipIf_setReg (c : Bool) : (s.setReg r b).skipIf c = (s.skipIf c).setReg r b := by
  cases c <;> rfl

theorem State.afterKeyTest_setReg (k : Byte) : (s.setReg r b).afterKeyTest k = (s.afterKeyTest k).setReg r b :=
  (apply_ite (State.setReg · r b) (s.keyIsDrawn k = true) s.countDraw s).symm

/-- A block store that does not reach V[r]. -/
theorem State.storeRegs_setReg {n : Nat} (hr : n ≤ r.val) :
    (s.setReg r b).storeRegs n = (s.storeRegs n).setReg r b := by
  induction n with
  | zero => rfl
  | succ n ih =>
    have hval : (nibble n).val = n := nibble_val (by omega)
    have hne : nibble n ≠ r := fun heq => by
      rw [heq] at hval
      omega
    rw [State.storeRegs, ih (by omega), State.reg_setReg_of_ne s b hne]
    rfl

/-- Both block loads read the same bytes. -/
theorem agreeBut_loadRegs (n : Nat) :
    AgreeBut r b ((List.range n).map nibble) (s.loadRegs n) ((s.setReg r b).loadRegs n) := by
  induction n with
  | zero => exact .refl
  | succ n ih =>
    rw [List.range_succ, List.map_append]
    exact ih.setReg (nibble n) (s.memRead (s.i.toNat + n))

end

/-! ## The bodies -/

/-- The registers that a block transfer of V[0..x] reaches. -/
theorem mem_map_nibble_range {r x : Nibble} :
    r ∈ (List.range (x.val + 1)).map nibble ↔ r ∈ (List.finRange 16).filter (fun r => decide (r ≤ x)) := by
  simp only [List.mem_map, List.mem_range, List.mem_filter, List.mem_finRange, true_and, decide_eq_true_iff]
  constructor
  · rintro ⟨k, hk, rfl⟩
    rw [Fin.le_def, nibble_val (by omega)]
    omega
  · exact fun hr => ⟨r.val, Nat.lt_succ_of_le hr, nibble_of_val r⟩

/-- The registers that a body reads are the same in both states, so it writes the same to both. -/
theorem exec_agreeBut {i : Instr} {s : State} {r : Nibble} (b : Byte) (hr : r ∉ i.reads s.cfg) :
    ∃ t u, exec i s = .next t ∧ exec i (s.setReg r b) = .next u ∧ AgreeBut r b i.writes t u := by
  have hread : ∀ x ∈ i.reads s.cfg, (s.setReg r b).reg x = s.reg x := fun x hx =>
    s.reg_setReg_of_ne b fun hxr => hr (hxr ▸ hx)
  cases i
  case cls | ret | jp | call | ldI | ldVxK => exact ⟨_, _, rfl, rfl, .refl⟩
  case ldImm x _ | ldVxDt x => exact ⟨_, _, rfl, rfl, AgreeBut.refl.setReg x _⟩
  case rnd x _ => exact ⟨_, _, rfl, rfl, (AgreeBut.refl (t := s.countDraw)).setReg x _⟩
  case jpV0 | ldDtVx | ldStVx | ldFVx | ldBVx =>
    simp only [Instr.reads, List.forall_mem_singleton] at hread
    refine ⟨_, _, rfl, ?_, .refl⟩
    simp only [exec, execJpV0, execLdDtVx, execLdStVx, execLdFVx, execLdBVx, hread]
    rfl
  case seImm | sneImm | seReg | sneReg =>
    simp only [Instr.reads, List.forall_mem_cons] at hread
    refine ⟨_, _, rfl, ?_, .refl⟩
    simp only [exec, execSeImm, execSneImm, execSeReg, execSneReg, hread, State.skipIf_setReg]
  case skp | sknp =>
    simp only [Instr.reads, List.forall_mem_singleton] at hread
    refine ⟨_, _, rfl, ?_, .refl⟩
    simp only [exec, execSkp, execSknp, hread, State.afterKeyTest_setReg, State.skipIf_setReg]
    rfl
  case addImm x _ | ldReg x _ | or x _ | and x _ | xor x _ =>
    simp only [Instr.reads, List.forall_mem_cons] at hread
    refine ⟨_, _, rfl, ?_, AgreeBut.refl.setReg x _⟩
    simp only [exec, execAddImm, execLdReg, execOr, execAnd, execXor, hread]
  case addReg x _ | sub x _ | subn x _ =>
    simp only [Instr.reads, List.forall_mem_cons] at hread
    refine ⟨_, _, rfl, ?_, AgreeBut.refl.setRegFlag x _ _⟩
    simp only [exec, execAddReg, execSub, execSubn, hread]
  case shr x y | shl x y =>
    have hoperand : (s.setReg r b).shiftOperand x y = s.shiftOperand x y := by
      cases hsrc : s.cfg.shiftSrc
      all_goals
        simp only [Instr.reads, hsrc, List.forall_mem_singleton] at hread
        simp only [State.shiftOperand, State.setReg_cfg, hsrc, hread]
    refine ⟨_, _, rfl, ?_, AgreeBut.refl.setRegFlag x _ _⟩
    simp only [exec, execShr, execShl, hoperand]
  case addIVx | drw =>
    simp only [Instr.reads, List.forall_mem_cons] at hread
    refine ⟨_, _, rfl, ?_, AgreeBut.refl.setReg vf _⟩
    simp only [exec, execAddIVx, execDrw, hread]
    rfl
  case ldMemVx x =>
    have hxr : x < r := by simpa [Instr.reads] using hr
    refine ⟨_, _, rfl, ?_, .refl⟩
    rw [exec, execLdMemVx, State.storeRegs_setReg s r b hxr]
    rfl
  case ldVxMem x =>
    obtain ⟨hwritten, hkept⟩ := (agreeBut_loadRegs s r b (x.val + 1)).congr mem_map_nibble_range
    exact ⟨_, _, rfl, rfl, fun hmem => congrArg (State.setI · _) (hwritten hmem),
      fun hno => congrArg (State.setI · _) (hkept hno)⟩

/-- Settles O21: the writes by the frame of the bodies, the reads by running each body from two states that agree but
for one register. -/
theorem registerPortsAreAsListed : Obligations.RegisterPortsAreAsListed := by
  refine fun i s => ⟨?_, fun r b hr => ?_⟩
  · obtain ⟨t, ht⟩ := exec_next i s
    exact ⟨t, ht, exec_regsUnchangedBut_writes ht⟩
  · obtain ⟨t, u, ht, hu, hagree⟩ := exec_agreeBut b hr
    exact ⟨t, u, ht, hu, hagree.eq_of_mem, hagree.eq_setReg_of_not_mem⟩

end Sys2Proof.Machine
end

section
/-! PROOFS. Nested calls and their returns (spec/41_control_transfer.md R109). -/
namespace Sys2Proof.Machine

/-! ## Indices around the stack (R27) -/

/-- Fewer than `d` places apart, indices modulo `d` differ. -/
theorem add_mod_ne {d p k n : Nat} (hlt : k < n) (hclose : n < k + d) : (p + k) % d ≠ (p + n) % d := by
  intro heq
  have hdvd : d ∣ n - k := (Nat.modEq_iff_dvd' hlt.le).1 (Nat.ModEq.add_left_cancel' p heq)
  have := Nat.le_of_dvd (by omega) hdvd
  omega

/-- A pop steps SP back over the slot of the push (R27). -/
theorem succ_mod_pred_mod {d : Nat} (hd : 0 < d) (p : Nat) : ((p + 1) % d + d - 1) % d = p % d := by
  rw [Nat.add_sub_assoc hd, Nat.mod_add_mod, show p + 1 + (d - 1) = p + d by omega, Nat.add_mod_right]

/-! ## Return addresses on the stack -/

/-- Above slot `p` lie the return addresses `as`, oldest first, and SP is the slot of the last; of more than
STACK_DEPTH addresses only the newest are still held (R109). -/
structure StackHolds (p : Nat) (as : List Addr) (s : State) : Prop where
  sp_eq : s.sp = (p + as.length) % s.cfg.stackDepth
  slot_eq : ∀ k (hk : k < as.length), as.length ≤ k + s.cfg.stackDepth →
    s.slot ((p + (k + 1)) % s.cfg.stackDepth) = as[k]

theorem StackHolds.nil {s : State} (hs : s.Inv) : StackHolds s.sp [] s := by
  obtain ⟨-, -, hsp, -⟩ := hs
  exact ⟨(Nat.mod_eq_of_lt hsp).symm, nofun⟩

/-- A call puts its return address above the others; it overwrites none of the newest STACK_DEPTH. -/
theorem StackHolds.call {s : State} {p : Nat} {as : List Addr} (h : StackHolds p as s) (hs : s.Inv) (a nnn : Addr) :
    StackHolds p (as ++ [a]) ((s.push a).setPc nnn) := by
  have hpushed : (s.sp + 1) % s.cfg.stackDepth = (p + (as.length + 1)) % s.cfg.stackDepth := by
    rw [h.sp_eq, Nat.mod_add_mod, Nat.add_assoc]
  have hslot := fun j => s.slot_push a j hs.push_slot_lt
  rw [hpushed] at hslot
  refine ⟨by simpa using hpushed, fun k hk hkept => ?_⟩
  simp only [List.length_append, List.length_singleton, State.setPc_cfg, State.push_cfg] at hk hkept
  rw [State.slot_setPc, State.setPc_cfg, State.push_cfg, hslot]
  obtain hlt | rfl := Nat.lt_succ_iff_lt_or_eq.1 hk
  · rw [if_neg (add_mod_ne (by omega) (by omega)), List.getElem_append_left hlt]
    exact h.slot_eq k hlt (by omega)
  · rw [if_pos rfl, List.getElem_concat_length rfl]

/-! ## Calls (R102) -/

theorem callsRun_append_singleton {calls : List (Addr × Addr)} {c : Addr × Addr} {s u : State} :
    CallsRun (calls ++ [c]) s u ↔ ∃ t, CallsRun calls s t ∧ exec (.call c.2) (t.setPc c.1) = .next u := by
  induction calls generalizing s with
  | nil => simp [CallsRun]
  | cons d calls ih =>
    simp only [List.cons_append, CallsRun, ih]
    constructor
    · rintro ⟨v, hv, t, hrun, hu⟩
      exact ⟨t, ⟨v, hv, hrun⟩, hu⟩
    · rintro ⟨t, ⟨v, hv, hrun⟩, hu⟩
      exact ⟨v, hv, t, hrun, hu⟩

/-- Calls run from every state of the invariant, and leave their return addresses on the stack. -/
theorem exists_callsRun {s : State} (hs : s.Inv) (calls : List (Addr × Addr)) :
    ∃ t, CallsRun calls s t ∧ t.Inv ∧ t.cfg = s.cfg ∧ StackHolds s.sp (calls.map Prod.fst) t := by
  induction calls using List.reverseRecOn with
  | nil => exact ⟨s, rfl, hs, rfl, .nil hs⟩
  | append_singleton calls c ih =>
    obtain ⟨t, hrun, ht, hcfg, hheld⟩ := ih
    have hfrom : (t.setPc c.1).Inv := ht
    have hheldFrom : StackHolds s.sp (calls.map Prod.fst) (t.setPc c.1) := ⟨hheld.sp_eq, hheld.slot_eq⟩
    refine ⟨_, callsRun_append_singleton.2 ⟨t, hrun, rfl⟩, hfrom.push c.1, hcfg, ?_⟩
    rw [List.map_append]
    exact hheldFrom.call hfrom c.1 c.2

/-! ## Returns (R100) -/

/-- Returns go to the addresses in the slots from SP down. -/
theorem returnsRun_reverse {s : State} (hdepth : 0 < s.cfg.stackDepth) {p : Nat} {as : List Addr}
    (hsp : s.sp = (p + as.length) % s.cfg.stackDepth)
    (hslot : ∀ k (hk : k < as.length), s.slot ((p + (k + 1)) % s.cfg.stackDepth) = as[k]) :
    ReturnsRun as.reverse s := by
  induction as using List.reverseRecOn generalizing s with
  | nil => trivial
  | append_singleton as a ih =>
    rw [List.length_append, List.length_singleton] at hsp
    rw [List.reverse_append]
    refine ⟨s.popPc, rfl, ?_, ih hdepth ?_ fun k hk => ?_⟩
    · rw [State.popPc_pc, hsp, hslot as.length (by simp), List.getElem_concat_length rfl]
    · rw [State.popPc_sp, State.popPc_cfg, hsp, ← Nat.add_assoc, succ_mod_pred_mod hdepth]
    · rw [State.slot_popPc, State.popPc_cfg, hslot k (by simp; omega), List.getElem_append_left hk]

/-- While no more than STACK_DEPTH return addresses were pushed, all are held, and the returns go to each. -/
theorem StackHolds.returnsRun {s : State} {p : Nat} {as : List Addr} (h : StackHolds p as s) (hs : s.Inv)
    (hlen : as.length ≤ s.cfg.stackDepth) : ReturnsRun as.reverse s :=
  returnsRun_reverse hs.stackDepth_pos h.sp_eq fun k hk => h.slot_eq k hk (by omega)

/-- One address more than STACK_DEPTH lies in the slot of the first, whose place in the returns it takes. -/
theorem StackHolds.returnsRun_of_overflow {s : State} {p : Nat} {first last : Addr} {as : List Addr}
    (h : StackHolds p (first :: as ++ [last]) s) (hs : s.Inv) (hlen : as.length + 1 = s.cfg.stackDepth) :
    ReturnsRun (last :: as ++ [last]).reverse s := by
  refine returnsRun_reverse hs.stackDepth_pos (p := p) (by simpa using h.sp_eq) fun k hk => ?_
  cases k with
  | zero =>
    have hwrap : p + (as.length + 1 + 1) = p + (0 + 1) + s.cfg.stackDepth := by omega
    calc s.slot ((p + (0 + 1)) % s.cfg.stackDepth)
      _ = s.slot ((p + (as.length + 1 + 1)) % s.cfg.stackDepth) := by rw [hwrap, Nat.add_mod_right]
      _ = (first :: as ++ [last])[as.length + 1] := h.slot_eq _ (by simp) (by simp; omega)
      _ = last := by simp
  | succ k => exact h.slot_eq (k + 1) (by simpa using hk) (by simp; omega)

/-! ## The obligation -/

/-- Settles O27: the calls leave their return addresses around the stack, and the returns read them back from the last
on; one address too many stands where the first stood. -/
theorem nestedCallsReturnToTheirCallers : Obligations.NestedCallsReturnToTheirCallers := by
  refine fun s calls hs => ⟨fun hlen => ?_, fun last hlen => ?_⟩
  · obtain ⟨t, hrun, ht, hcfg, hheld⟩ := exists_callsRun hs calls
    exact ⟨t, hrun, hcfg, hheld.returnsRun ht (by simpa [hcfg] using hlen)⟩
  · obtain ⟨t, hrun, ht, hcfg, hheld⟩ := exists_callsRun hs (calls ++ [last])
    refine ⟨t, hrun, ?_⟩
    cases calls with
    | nil => exact absurd hlen hs.stackDepth_pos.ne
    | cons first calls =>
      have := StackHolds.returnsRun_of_overflow (first := first.1) (last := last.1) (as := calls.map Prod.fst)
        (by simpa using hheld) ht (by simpa [hcfg] using hlen)
      simpa using this

end Sys2Proof.Machine
end
